-- ==== Sys2Proof/Word.lean ====
section
/-! DEFINITION. The two machine words of the block: a byte of the byte memory (R8) and a 32-bit register word (R20). -/

namespace Sys2Proof

/-- A register word: every register of the window is 32 bits wide (R20), and so are LEN_W and the cursors (R6, R30). -/
abbrev Word := BitVec 32

/-- A byte of M, an integer 0–255 (R8, R33). -/
abbrev Byte := BitVec 8

end Sys2Proof
end

