-- ==== Sys2Proof/Syntax.lean ====
section
/-! DEFINITION. The instructions: one constructor per row of spec/opcode_table.json. -/

namespace Sys2Proof

/-- The four rows of the opcode table. LIT and RUN are the tokens that DECODE executes (R139); ENCODE and DECODE are
the command words that the host writes to CMD (R90). -/
inductive Instr where
  /-- LIT v (R82, R140): the token `0vvvvvvv`; `v` is the whole token byte. -/
  | lit (v : Byte)
  /-- RUN c, v (R83, R141): the token `1ccccccc vvvvvvvv`; `c` is the 7-bit count, `v` the value byte. -/
  | run (c : BitVec 7) (v : Byte)
  /-- ENCODE (R90, R100): command word 0x00000001. Its operands are in the registers. -/
  | encode
  /-- DECODE (R90, R130): command word 0x00000002. Its operands are in the registers. -/
  | decode
deriving DecidableEq, Repr

end Sys2Proof
end

