-- ==== Sys2Proof/WellFormed.lean ====
section
/-! DEFINITION. Which terms of Instr the formats can carry. -/

namespace Sys2Proof

/-- A LIT carries a value 0–127 (R82); every RUN is encodable, its count being seven bits (R83, R84); a command word
has no operands (R90). -/
def Instr.wellFormed : Instr → Bool
  | .lit v => decide (v.toNat < 0x80)
  | .run _ _ => true
  | .encode => true
  | .decode => true

end Sys2Proof
end

