-- ==== Sys2Proof/Decode.lean ====
section
/-! DEFINITION. The two encodings of 30_encoding.md, the token format and the command word: decoders that are total and
reject by name, the encoder, and the opcode table as rows of mask and pattern. -/

namespace Sys2Proof

/-- Why bits are no instruction. -/
inductive DecodeError where
  /-- no byte where a token should begin -/
  | emptyStream
  /-- a run header is the last byte of the stream (R85, R141) -/
  | truncatedRun
  /-- a command word other than 1 and 2 (R91) -/
  | reservedCommand
deriving DecidableEq, Repr

/-- What an instruction is written as: bytes of a token stream in M, or a 32-bit word written to CMD. -/
inductive Code where
  | stream (bytes : List Byte)
  | command (w : Word)
deriving DecidableEq, Repr

/-- "Bit b[7] alone decides the kind and the length of the token" (R81): true for a run header. -/
def isRunHeader (b : Byte) : Bool := b.getLsbD 7

/-- The count of a run header: its low seven bits (R83, R84). -/
def headerCount (b : Byte) : BitVec 7 := b.setWidth 7

/-- The header byte of a run of count `c`: `0x80 | count` (R83). -/
def runHeader (c : BitVec 7) : Byte := 0x80#8 ||| c.setWidth 8

/-- The first token of a stream, and the bytes after it (R81–R85). -/
def decodeToken : List Byte → Except DecodeError (Instr × List Byte)
  | [] => .error .emptyStream
  | b :: rest =>
    if isRunHeader b then
      match rest with
      | [] => .error .truncatedRun
      | v :: rest' => .ok (.run (headerCount b) v, rest')
    else .ok (.lit b, rest)

/-- The command a word written to CMD stands for: every bit is compared (R90). -/
def decodeCommand (w : Word) : Except DecodeError Instr :=
  if w = 0x00000001#32 then .ok .encode
  else if w = 0x00000002#32 then .ok .decode
  else .error .reservedCommand

/-- The instruction that code begins with. -/
def decode : Code → Except DecodeError Instr
  | .stream bytes => (decodeToken bytes).map Prod.fst
  | .command w => decodeCommand w

/-- The code of an instruction (R82, R83, R90). -/
def encode : Instr → Code
  | .lit v => .stream [v]
  | .run c v => .stream [runHeader c, v]
  | .encode => .command 0x00000001#32
  | .decode => .command 0x00000002#32

/-- The bytes of a token; a command has none. -/
def tokenBytes : Instr → List Byte
  | .lit v => [v]
  | .run c v => [runHeader c, v]
  | .encode => []
  | .decode => []

/-- Is the instruction a token? -/
def Instr.isToken : Instr → Bool
  | .lit _ => true
  | .run _ _ => true
  | .encode => false
  | .decode => false

/-- A token stream as its tokens, "from offset 0 upward, with no gap" (R80); `fuel` bounds the number of tokens. -/
def decodeTokens : Nat → List Byte → Except DecodeError (List Instr)
  | _, [] => .ok []
  | 0, _ :: _ => .error .emptyStream
  | fuel + 1, b :: rest =>
    match decodeToken (b :: rest) with
    | .error e => .error e
    | .ok (i, rest') => (decodeTokens fuel rest').map (i :: ·)

/-- A whole token stream (R80): each token takes at least one byte. -/
def decodeStream (bytes : List Byte) : Except DecodeError (List Instr) := decodeTokens bytes.length bytes

/-- The bytes of a list of tokens, written one after the other (R93). -/
def assemble (tokens : List Instr) : List Byte := tokens.flatMap tokenBytes

/-- Where a row of the opcode table is found: at a token boundary of a stream, or in CMD. -/
inductive CodeSpace where
  | token
  | command
deriving DecidableEq, Repr

/-- One row of spec/opcode_table.json. Mask and pattern apply to the first byte of a token, to the whole of a word. -/
structure OpcodeRow where
  mnemonic : String
  space    : CodeSpace
  width    : Nat
  mask     : Nat
  pattern  : Nat
deriving DecidableEq, Repr

/-- spec/opcode_table.json. -/
def opcodeTable : List OpcodeRow :=
  [ { mnemonic := "LIT",    space := .token,   width := 8,  mask := 0x80,       pattern := 0x00 },
    { mnemonic := "RUN",    space := .token,   width := 16, mask := 0x80,       pattern := 0x80 },
    { mnemonic := "ENCODE", space := .command, width := 32, mask := 0xFFFFFFFF, pattern := 0x00000001 },
    { mnemonic := "DECODE", space := .command, width := 32, mask := 0xFFFFFFFF, pattern := 0x00000002 } ]

/-- The row of an instruction. -/
def Instr.mnemonic : Instr → String
  | .lit _ => "LIT"
  | .run _ _ => "RUN"
  | .encode => "ENCODE"
  | .decode => "DECODE"

/-- Does the code match the row: the right space, the row's width in bits, and the masked bits equal to the pattern? -/
def OpcodeRow.matchesCode (r : OpcodeRow) : Code → Bool
  | .stream bytes =>
    decide (r.space = .token) && decide (8 * bytes.length = r.width) &&
      decide (Nat.land (bytes.headD 0).toNat r.mask = r.pattern)
  | .command w =>
    decide (r.space = .command) && decide (r.width = 32) && decide (Nat.land w.toNat r.mask = r.pattern)

/-- The code whose bits are `w` in the opcode table's numbering: up to 16 bits it is a token, first byte in bits 7..0
and second byte in bits 15..8; up to 32 bits it is a command word (log entry 17). -/
def tableCode (nbits w : Nat) : Option Code :=
  if nbits ≤ 16 then some (.stream [BitVec.ofNat 8 w, BitVec.ofNat 8 (w / 256)])
  else if nbits ≤ 32 ∧ w < 2 ^ 32 then some (.command (BitVec.ofNat 32 w))
  else none

/-- The instruction the decoder reads from bits numbered as the opcode table numbers them. -/
def decodeTableWord (nbits w : Nat) : Option Instr :=
  match tableCode nbits w with
  | none => none
  | some c =>
    match decode c with
    | .ok i => some i
    | .error _ => none

end Sys2Proof
end

