-- ==== Sys2Proof/Config.lean ====
section
/-! DEFINITION. What an implementation of the block fixes (the parameters of R6), as plain data that a State carries and
no step changes, and the one free value of the model. -/

namespace Sys2Proof

/-- A region of addresses: `base`, …, `base + len − 1`. -/
structure Region where
  base : Nat
  len  : Nat
deriving DecidableEq, Repr

/-- DEC_OVF_CHECK (R6, D13): the granularity of the decoder's capacity check. -/
inductive OvfCheck where
  | run   -- the whole run is checked before any byte of it is written (the default)
  | byte  -- each byte is checked before it is written
deriving DecidableEq, Repr

/-- STRICT_SCOPE (R6, D12): which input bytes the strict check examines. -/
inductive StrictScope where
  | literal  -- only bytes the encoder would emit as literal tokens (the default)
  | all      -- every input byte
deriving DecidableEq, Repr

/-- The parameters of R6. ADDR_W and MEM_SIZE bound the byte memory, REG_BASE places the register window.
`devices` lists the regions of M in which the platform has put a device with read side effects (R58, U11): a platform
that keeps R58 has none. -/
structure Config where
  addrW       : Nat
  memSize     : Nat
  regBase     : Nat
  decOvfCheck : OvfCheck
  strictScope : StrictScope
  devices     : List Region
deriving DecidableEq, Repr

/-- LEN_W of R6, fixed at 32: the width of every length, capacity and result register (D5). -/
abbrev Config.lenW : Nat := 32

/-- MAX_COUNT of R6, "127 (fixed by the source)". -/
abbrev Config.maxCount : Nat := 127

/-- The parameters of the state after reset: the defaults of R6, and for the OPEN ones MEM_SIZE = 0x1000 (the value of
95_test_vectors.md section 0) and REG_BASE = 0.  DESIGN CHOICE (log entry 2): a State may carry any other. -/
def Config.standard : Config :=
  { addrW := 32, memSize := 0x1000, regBase := 0, decOvfCheck := .run, strictScope := .literal, devices := [] }

/-- What R6 asks of the parameters: addresses fit the 32-bit address registers, and 1 ≤ MEM_SIZE ≤ 2^ADDR_W. -/
abbrev Config.WF (c : Config) : Prop := c.addrW ≤ 32 ∧ 1 ≤ c.memSize ∧ c.memSize ≤ 2 ^ c.addrW

/-- THE FREE VALUE: the k-th byte drawn where the spec says `any value` (R202, U12). It has no body: nothing can be
proved about which byte it is (log entry 9). -/
opaque Config.freeByte : Nat → Byte

end Sys2Proof
end

