-- ==== Sys2Proof/Machine/State.lean ====
section
/-! DEFINITION. The state of the block as plain data (10_state.md), the host's pending moves, the reasons a step can
stop, and the state after reset. -/

namespace Sys2Proof.Machine

/-- The error kinds of STATUS.ERR (R170). Codes 6–15 are reserved and never written, so they are no constructor. -/
inductive ErrCode where
  | noError
  | invalidArgument
  | truncatedStream
  | outputOverflow
  | strictLiteral
  | illegalCommand
deriving DecidableEq, Repr

/-- STATUS (R23): BUSY (bit 0), DONE (bit 1) and ERR (bits 7:4). The other bits are reserved and read as 0. -/
structure Status where
  busy : Bool
  done : Bool
  err  : ErrCode
deriving DecidableEq, Repr

/-- The engine's phase (R30). -/
inductive Phase where
  | idle
  | active
deriving DecidableEq, Repr

/-- The accepted command (R30). -/
inductive Op where
  | enc
  | dec
  | ill
deriving DecidableEq, Repr

/-- One move of the host (R71): a register access at a platform address with its width in bits, a one-byte access to
M, or the reset signal. -/
inductive HostMove where
  | regWrite (addr width : Nat) (data : Word)
  | regRead  (addr width : Nat)
  | memWrite (addr : Nat) (data : Byte)
  | memRead  (addr : Nat)
  | reset
deriving DecidableEq, Repr

/-- Who moves next: the host, the engine, or the host's POLL loop of R93 (it reads STATUS; while DONE = 0 the engine
moves and the loop goes round again). -/
inductive Turn where
  | host (m : HostMove)
  | engine
  | poll
deriving DecidableEq, Repr

/-- What a host read gave back: a register's word or a byte of M. -/
inductive Observation where
  | word (w : Word)
  | byte (b : Byte)
deriving DecidableEq, Repr

/-- The byte memory M (R33): the bytes that differ from what an unlisted address reads as, addresses strictly rising. -/
abbrev Memory := List Host.Cell

/-- The whole state. The latches `latchAddr` and `latchLen` are each ONE latch with two names (R92): B for ENCODE and T
for DECODE; n for ENCODE and tlen for DECODE. `schedule`, `observed` and `draws` are the model's own. -/
structure State where
  /-- the parameters of R6, which no step changes -/
  cfg         : Config
  /-- CTRL.STRICT, bit 0 of CTRL; bits 31:1 are reserved and read as 0 (R21) -/
  ctrlStrict  : Bool
  /-- STATUS (R23) -/
  status      : Status
  /-- SRC_ADDR (R24) -/
  srcAddr     : Word
  /-- SRC_LEN (R24) -/
  srcLen      : Word
  /-- DST_ADDR (R24) -/
  dstAddr     : Word
  /-- DST_CAP (R24) -/
  dstCap      : Word
  /-- RESULT (R25) -/
  result      : Word
  /-- the engine's phase (R30) -/
  phase       : Phase
  /-- the accepted command (R30) -/
  op          : Op
  /-- B (ENCODE) or T (DECODE), latched from SRC_ADDR (R30, R92) -/
  latchAddr   : Word
  /-- n (ENCODE) or tlen (DECODE), latched from SRC_LEN (R30, R92) -/
  latchLen    : Word
  /-- D, latched from DST_ADDR (R30) -/
  latchDst    : Word
  /-- cap, latched from DST_CAP (R30) -/
  latchCap    : Word
  /-- strict, latched from CTRL.STRICT (R30) -/
  latchStrict : Bool
  /-- the read cursor, the block's program counter (R30, R31) -/
  rd          : Word
  /-- the write cursor (R30, R32) -/
  wr          : Word
  /-- the byte memory M (R33) -/
  mem         : Memory
  /-- the moves still to come, the next one first; when it is empty the engine moves (log entry 5) -/
  schedule    : List Turn
  /-- what the last host read gave back, if there was one (log entry 6) -/
  observed    : Option Observation
  /-- how many free bytes have been drawn (log entry 9) -/
  draws       : Nat
deriving DecidableEq, Repr

/-- The reasons the machine stops with a fault. -/
inductive Fault where
  /-- An access to an address of M that does not exist, MEM_SIZE or above (R33, R51). Raised by a host access to M, and
  by an engine access in states no run reaches (R55: the engine "never makes an access outside M"). Safe: no effect is
  claimed. -/
  | outsideMemory
deriving DecidableEq, Repr

/-- The reasons the model refuses: the cases that 93_implementation_defined.md marks `refuse`, and the platform's
business. -/
inductive Refusal where
  /-- An instruction with no meaning in the model. No arm of exec answers it any more. Safe. -/
  | notModelled (mnemonic : String)
  /-- A DECODE whose token and output regions overlap (R68, U7); raised by the engine's first step of it. Safe. -/
  | overlappingRegions
  /-- An operation region that holds a device with read side effects (R58, U11); raised by the engine's first step of
  the operation. Safe. -/
  | deviceInRegion
  /-- A host access to a byte where the platform holds a device whose behaviour the spec does not give (R58). Safe. -/
  | deviceAccess
  /-- A host access, while BUSY, to a byte the running operation may touch (R63, U8). Safe. -/
  | raceWithEngine
  /-- A register access that is not an aligned 32-bit one (R26, U10); raised by a host register access. Safe. -/
  | badRegisterAccess
  /-- A register access outside the 0x40-byte window: "the platform's business" (R28). Safe. -/
  | outsideWindow
deriving DecidableEq, Repr

/-- What a step answers. -/
abbrev Result := Host.Outcome State Fault Refusal

/-- The state right after reset (R40, R200): every register 0, STATUS 0, the engine idle. The latches and cursors, which
R40 leaves unspecified and unread, are 0 (DESIGN CHOICE, log entry 4), M lists nothing (log entry 3) and the parameters
are Config.standard (log entry 2). -/
def State.reset : State :=
  { cfg := Config.standard
    ctrlStrict := false
    status := { busy := false, done := false, err := .noError }
    srcAddr := 0, srcLen := 0, dstAddr := 0, dstCap := 0, result := 0
    phase := .idle
    op := .enc
    latchAddr := 0, latchLen := 0, latchDst := 0, latchCap := 0, latchStrict := false
    rd := 0, wr := 0
    mem := []
    schedule := []
    observed := none
    draws := 0 }

end Sys2Proof.Machine
end

