-- ==== Sys2Proof/Machine/Flags.lean ====
section
/-! DEFINITION. The STATUS register: its word as the host reads it, the numeric error codes, and the values that
acceptance and completion give it. -/

namespace Sys2Proof.Machine

/-- The numeric code of STATUS.ERR (R170). -/
def ErrCode.code : ErrCode → BitVec 4
  | .noError => 0
  | .invalidArgument => 1
  | .truncatedStream => 2
  | .outputOverflow => 3
  | .strictLiteral => 4
  | .illegalCommand => 5

/-- STATUS as a word (R23): BUSY in bit 0, DONE in bit 1, ERR in bits 7:4, every other bit 0. -/
def Status.word (t : Status) : Word :=
  (if t.busy then 0x1#32 else 0#32) ||| (if t.done then 0x2#32 else 0#32) ||| (t.err.code.setWidth 32 <<< 4)

/-- STATUS after an acceptance: BUSY ← 1, DONE ← 0, ERR ← 0 (R92). -/
def Status.accepted : Status := { busy := true, done := false, err := .noError }

/-- STATUS after a completion: BUSY ← 0, DONE ← 1, ERR ← the code (R175, R176). -/
def Status.completed (e : ErrCode) : Status := { busy := false, done := true, err := e }

/-- CTRL as a word (R21): STRICT in bit 0, bits 31:1 read as 0. -/
def ctrlWord (strict : Bool) : Word := if strict then 0x1#32 else 0#32

end Sys2Proof.Machine
end

