-- ==== Sys2Proof/Machine/Ops.lean ====
section
/-! DEFINITION. The named operations every meaning is made of: the byte memory, the state updates, the engine's
one-byte stores, acceptance (R92), and the two completions (R175, R176), which are this block's exception entry. -/

namespace Sys2Proof.Machine

/-! ### The byte memory -/

/-- What an address of M that nothing has written reads as. DESIGN CHOICE (log entry 3). -/
def unlistedByte : Byte := 0#8

/-- `M[a]`. -/
def Memory.readByte : Memory → Nat → Byte
  | [], _ => unlistedByte
  | (b, x) :: m, a => if a = b then x else Memory.readByte m a

/-- Puts a listed byte in its place. -/
def Memory.insertByte : Memory → Nat → Byte → Memory
  | [], a, v => [(a, v)]
  | (b, x) :: m, a, v =>
    if a < b then (a, v) :: (b, x) :: m
    else if a = b then (a, v) :: m
    else (b, x) :: Memory.insertByte m a v

/-- Takes an address off the list. -/
def Memory.eraseByte : Memory → Nat → Memory
  | [], _ => []
  | (b, x) :: m, a => if a = b then m else (b, x) :: Memory.eraseByte m a

/-- `M[a] ← v`, keeping the canonical form: the value an unlisted address reads as is not listed. -/
def Memory.writeByte (m : Memory) (a : Nat) (v : Byte) : Memory :=
  if v = unlistedByte then Memory.eraseByte m a else Memory.insertByte m a v

/-- One-byte writes of `bytes` at `a`, `a + 1`, … in increasing address order (R52, R53). -/
def Memory.writeBytes : Memory → Nat → List Byte → Memory
  | m, _, [] => m
  | m, a, v :: bytes => Memory.writeBytes (Memory.writeByte m a v) (a + 1) bytes

/-- The `k` bytes at `a`, `a + 1`, …: element i of a buffer with base a is `M[a + i]` (R53). -/
def Memory.readBytes (m : Memory) : Nat → Nat → List Byte
  | _, 0 => []
  | a, k + 1 => Memory.readByte m a :: Memory.readBytes m (a + 1) k

/-- The canonical form: addresses strictly rising, and no entry equal to what an unlisted address reads as. -/
abbrev Memory.wf (m : Memory) : Prop := m.Pairwise (fun c d => c.1 < d.1) ∧ ∀ c ∈ m, c.2 ≠ unlistedByte

/-! ### State updates, one name each -/

def State.setMem (s : State) (m : Memory) : State := { s with mem := m }
def State.setCursors (s : State) (rd wr : Word) : State := { s with rd := rd, wr := wr }
def State.setSchedule (s : State) (l : List Turn) : State := { s with schedule := l }
def State.observe (s : State) (o : Observation) : State := { s with observed := some o }
def State.setCtrlStrict (s : State) (b : Bool) : State := { s with ctrlStrict := b }
def State.setSrcAddr (s : State) (w : Word) : State := { s with srcAddr := w }
def State.setSrcLen (s : State) (w : Word) : State := { s with srcLen := w }
def State.setDstAddr (s : State) (w : Word) : State := { s with dstAddr := w }
def State.setDstCap (s : State) (w : Word) : State := { s with dstCap := w }

/-! ### Acceptance and completion -/

/-- Acceptance (R92): one atomic state change. RESULT is not changed. -/
def State.accept (s : State) (op : Op) : State :=
  { s with
    op := op
    latchAddr := s.srcAddr
    latchLen := s.srcLen
    latchDst := s.dstAddr
    latchCap := s.dstCap
    latchStrict := s.ctrlStrict
    rd := 0
    wr := 0
    status := Status.accepted
    phase := .active }

/-- A command written to CMD: accepted when BUSY = 0 (R92), ignored when BUSY = 1 (R27). -/
def State.command (s : State) (op : Op) : State := if s.status.busy then s else s.accept op

/-- Either completion: RESULT, STATUS and phase in one atomic state change (R175, R176). -/
def State.finish (s : State) (r : Word) (e : ErrCode) : State :=
  { s with result := r, status := Status.completed e, phase := .idle }

/-- Success completion, `complete(r)` (R175). -/
def State.complete (s : State) (r : Word) : State := s.finish r .noError

/-- RESULT after a failure (R176): 0 for ENCODE, the sentinel 0xFFFFFFFF otherwise (R174). -/
def failureResult : Op → Word
  | .enc => 0x00000000#32
  | .dec => 0xFFFFFFFF#32
  | .ill => 0xFFFFFFFF#32

/-- Failure completion, `raise E` (R176): this block's taking of an exception. Bytes already written stay; no later
statement of the operation runs. -/
def State.fail (s : State) (e : ErrCode) : State := s.finish (failureResult s.op) e

/-! ### Outcomes -/

/-- The pseudocode's sequence: go on from the next state, stop at a fault or a refusal. -/
def Result.andThen (r : Result) (f : State → Result) : Result :=
  match r with
  | .next s => f s
  | .fault e => .fault e
  | .refused e => .refused e

/-- `raise E` as a statement of the pseudocode (R10). -/
def raise (e : ErrCode) (s : State) : Result := .next (s.fail e)

/-- `complete(r)` as a statement of the pseudocode (R10). -/
def complete (r : Word) (s : State) : Result := .next (s.complete r)

/-! ### The engine's accesses to M -/

/-- Do the `k` addresses from `a` exist? (R33; no address is needed for k = 0.) -/
def State.inMemory (s : State) (a k : Nat) : Bool := decide (k = 0) || decide (a + k ≤ s.cfg.memSize)

/-- `MemWrite(a + i, 1, bytes[i])` for i = 0, 1, … (R10, R52). The fault is for states no run reaches (R55). -/
def storeBytes (a : Nat) (bytes : List Byte) (s : State) : Result :=
  if s.inMemory a bytes.length then .next (s.setMem (Memory.writeBytes s.mem a bytes)) else .fault .outsideMemory

end Sys2Proof.Machine
end

