-- ==== Sys2Proof/Machine/Command.lean ====
section
/-! DEFINITION. The command words ENCODE and DECODE, and every other word, as a write to CMD executes them: acceptance
(R92), or nothing while BUSY (R27). The accepted operation is then the engine's (Engine.lean). -/

namespace Sys2Proof.Machine

/-- ENCODE (R90, R92): the engine then runs R100. -/
def execEncode (s : State) : Result := .next (s.command .enc)

/-- DECODE (R90, R92): the engine then runs R130. -/
def execDecode (s : State) : Result := .next (s.command .dec)

/-- A reserved command word (R91): "accepted like a command"; the engine then runs R172. -/
def execIllegal (s : State) : Result := .next (s.command .ill)

end Sys2Proof.Machine
end

