-- ==== Sys2Proof/Machine/Operands.lean ====
section
/-! DEFINITION. The operands: the latched registers under the spec's names (R11, R30), presence (R55), regions and
footprints (R56), the run length (R103), and the registers of the window (R20). -/

namespace Sys2Proof.Machine

/-! ### The latched operands, as the exact numbers the rules compare (R8) -/

/-- B, the encode buffer base. -/
abbrev State.B (s : State) : Nat := s.latchAddr.toNat
/-- n, the input length. -/
abbrev State.n (s : State) : Nat := s.latchLen.toNat
/-- T, the token base. -/
abbrev State.T (s : State) : Nat := s.latchAddr.toNat
/-- tlen, the token length. -/
abbrev State.tlen (s : State) : Nat := s.latchLen.toNat
/-- D, the output base. -/
abbrev State.D (s : State) : Nat := s.latchDst.toNat
/-- cap, the output capacity. -/
abbrev State.cap (s : State) : Nat := s.latchCap.toNat
/-- rd, the read cursor. -/
abbrev State.rdN (s : State) : Nat := s.rd.toNat
/-- wr, the write cursor. -/
abbrev State.wrN (s : State) : Nat := s.wr.toNat

/-! ### Regions and presence -/

/-- Is the address in the region? -/
def inRegion (r : Region) (a : Nat) : Bool := decide (r.base ≤ a) && decide (a < r.base + r.len)

/-- Have the two regions an address in common? A region of length 0 overlaps nothing (R68). -/
def regionsOverlap (r q : Region) : Bool :=
  decide (max r.base q.base < min (r.base + r.len) (q.base + q.len))

/-- `present(base, len)` (R55): base + len ≤ MEM_SIZE, computed exactly. -/
def present (c : Config) (base len : Nat) : Bool := decide (base + len ≤ c.memSize)

/-- Does the platform hold a device with read side effects in the region? (R58) -/
def hasDevice (c : Config) (r : Region) : Bool := c.devices.any (regionsOverlap r)

/-- ENCODE's buffer, {B, …, B+n−1}. -/
def State.buffer (s : State) : Region := { base := s.B, len := s.n }
/-- DECODE's token region, {T, …, T+tlen−1}. -/
def State.tokens (s : State) : Region := { base := s.T, len := s.tlen }
/-- DECODE's output region, {D, …, D+cap−1}. -/
def State.output (s : State) : Region := { base := s.D, len := s.cap }

/-- ENCODE's argument checks hold (R101). -/
def State.encodeArgsOk (s : State) : Bool := decide (s.n ≠ 0) && present s.cfg s.B s.n

/-- DECODE's argument checks hold (R131). -/
def State.decodeArgsOk (s : State) : Bool :=
  decide (s.tlen ≠ 0) && present s.cfg s.T s.tlen && present s.cfg s.D s.cap

/-- May the running operation touch the byte at `a`? (R56; an operation that fails its argument checks touches none.) -/
def State.mayTouch (s : State) (a : Nat) : Bool :=
  match s.phase with
  | .idle => false
  | .active =>
    match s.op with
    | .enc => s.encodeArgsOk && inRegion s.buffer a
    | .dec => s.decodeArgsOk && (inRegion s.tokens a || inRegion s.output a)
    | .ill => false

/-- The write region of the running operation (R202), as far as M reaches. -/
def State.writeRegion (s : State) : Region :=
  match s.phase with
  | .idle => { base := 0, len := 0 }
  | .active =>
    match s.op with
    | .enc => { base := s.B, len := min s.n (s.cfg.memSize - s.B) }
    | .dec => { base := s.D, len := min s.cap (s.cfg.memSize - s.D) }
    | .ill => { base := 0, len := 0 }

/-! ### The encoder's operands -/

/-- Is a byte outside the safe domain 0–127 (R12)? -/
def highByte (v : Byte) : Bool := decide (0x80 ≤ v.toNat)

/-- How many bytes at the head of the list equal `v`. -/
def leadingRun (v : Byte) : List Byte → Nat
  | [] => 0
  | x :: xs => if x = v then leadingRun v xs + 1 else 0

/-- The run length at address `a` with `k` bytes of input remaining (R103): the largest c ≤ min(127, k) such that the
c bytes from `a` are equal. -/
def runlen (m : Memory) (a k : Nat) : Nat :=
  leadingRun (Memory.readByte m a) (Memory.readBytes m a (min Config.maxCount k))

/-- The loop of `strict_check` under LITERAL (R104) from offset `r`; `fuel` bounds its turns, each of which advances r. -/
def literalScan (m : Memory) (base n : Nat) : Nat → Nat → Bool
  | 0, _ => false
  | fuel + 1, r =>
    if r < n then
      let c := runlen m (base + r) (n - r)
      if c = 1 ∧ highByte (Memory.readByte m (base + r)) then true else literalScan m base n fuel (r + c)
    else false

/-- Does `strict_check` find a byte to reject (R104)? -/
def State.strictFinds (s : State) : Bool :=
  match s.cfg.strictScope with
  | .all => (Memory.readBytes s.mem s.B s.n).any highByte
  | .literal => literalScan s.mem s.B s.n s.n 0

/-! ### The decoder's operands -/

/-- The bytes of the stream from the read cursor that a token can take: two, or the last one. -/
def State.tokenWindow (s : State) : List Byte := Memory.readBytes s.mem (s.T + s.rdN) (min 2 (s.tlen - s.rdN))

/-! ### The register window -/

/-- The registers of the window (R20, R28). -/
inductive Reg where
  | ctrl | cmd | status | srcAddr | srcLen | dstAddr | dstCap | result | reserved
deriving DecidableEq, Repr

/-- The register at an offset (R20); the rest of the window is reserved (R28). -/
def regAt (off : Nat) : Reg :=
  if off = 0x00 then .ctrl
  else if off = 0x04 then .cmd
  else if off = 0x08 then .status
  else if off = 0x0C then .srcAddr
  else if off = 0x10 then .srcLen
  else if off = 0x14 then .dstAddr
  else if off = 0x18 then .dstCap
  else if off = 0x1C then .result
  else .reserved

/-- The window is 0x40 bytes (R20). -/
def windowSize : Nat := 0x40

/-- The offset of the CMD register (R20, R22). -/
def cmdOffset : Nat := 0x04

/-- The register a host access reaches: inside the window (R28), 32 bits wide and aligned (R26). -/
def regAccess (c : Config) (addr width : Nat) : Except Refusal Reg :=
  if addr < c.regBase ∨ c.regBase + windowSize ≤ addr then .error .outsideWindow
  else if width ≠ 32 ∨ (addr - c.regBase) % 4 ≠ 0 then .error .badRegisterAccess
  else .ok (regAt (addr - c.regBase))

/-- What an address register keeps of a word: its bits ADDR_W−1:0 (R24). -/
def addrBits (c : Config) (w : Word) : Word := BitVec.ofNat 32 (w.toNat % 2 ^ c.addrW)

end Sys2Proof.Machine
end

