-- ==== Sys2Proof/Machine/Token.lean ====
section
/-! DEFINITION. The token instructions LIT (R140) and RUN (R141), as DECODE executes them. -/

namespace Sys2Proof.Machine

/-- LIT (R140): check the capacity, write the byte, advance both cursors by 1. -/
def execLit (v : Byte) (s : State) : Result :=
  if s.wrN + 1 > s.cap then raise .outputOverflow s
  else (storeBytes (s.D + s.wrN) [v] s).andThen fun t => .next (t.setCursors (t.rd + 1) (t.wr + 1))

/-- RUN's loop under DEC_OVF_CHECK = BYTE (R141): `c` more bytes, each checked before it is written; after the last one
rd advances by 2. -/
def runByteLoop (v : Byte) : Nat → State → Result
  | 0, s => .next (s.setCursors (s.rd + 2) s.wr)
  | c + 1, s =>
    if s.wrN + 1 > s.cap then raise .outputOverflow s
    else (storeBytes (s.D + s.wrN) [v] s).andThen fun t => runByteLoop v c (t.setCursors t.rd (t.wr + 1))

/-- RUN (R141): the value byte must be in the stream (checked first, R146), then the capacity, whole run or byte by
byte as DEC_OVF_CHECK says. -/
def execRun (c : BitVec 7) (v : Byte) (s : State) : Result :=
  if s.rdN + 1 ≥ s.tlen then raise .truncatedStream s
  else
    match s.cfg.decOvfCheck with
    | .run =>
      if s.wrN + c.toNat > s.cap then raise .outputOverflow s
      else
        (storeBytes (s.D + s.wrN) (List.replicate c.toNat v) s).andThen fun t =>
          .next (t.setCursors (t.rd + 2) (t.wr + c.setWidth 32))
    | .byte => runByteLoop v c.toNat s

end Sys2Proof.Machine
end

