-- ==== Sys2Proof/Machine/Encoder.lean ====
section
/-! DEFINITION. The encoder's token step (R105) and its two emissions, EMIT-LIT (R106) and EMIT-RUN (R107). -/

namespace Sys2Proof.Machine

/-- Writes a token at B + wr and advances wr by its length. -/
def emit (bytes : List Byte) (s : State) : Result :=
  (storeBytes (s.B + s.wrN) bytes s).andThen fun t =>
    .next (t.setCursors t.rd (t.wr + BitVec.ofNat 32 bytes.length))

/-- EMIT-LIT (R106): the byte "unchanged", whatever its value. -/
def emitLit (v : Byte) (s : State) : Result := emit [v] s

/-- EMIT-RUN (R107): `0x80 | c` and the value. -/
def emitRun (c : Nat) (v : Byte) (s : State) : Result := emit [runHeader (BitVec.ofNat 7 c), v] s

/-- One encode token step (R105): the reads (v and the run length) come before the writes. The fault is for states no
run reaches (R55). -/
def encodeTokenStep (s : State) : Result :=
  let a := s.B + s.rdN
  let k := s.n - s.rdN
  if s.inMemory a (min Config.maxCount k) then
    let v := Memory.readByte s.mem a
    let c := runlen s.mem a k
    (if c = 1 then emitLit v s else emitRun c v s).andThen fun t =>
      .next (t.setCursors (t.rd + BitVec.ofNat 32 c) t.wr)
  else .fault .outsideMemory

end Sys2Proof.Machine
end

