-- ==== Sys2Proof/Machine/Engine.lean ====
section
/-! DEFINITION. The engine: what it does with an accepted command, one token step at a time (D28): ENCODE (R100), DECODE
(R130, R139), a reserved word (R172). -/

namespace Sys2Proof.Machine

/-- What the checks before an operation's first token say. -/
inductive Verdict where
  | proceed
  | fail (e : ErrCode)
  | refuse (r : Refusal)
deriving DecidableEq, Repr

/-- The checks of ENCODE (R100, R101, R104), in the order of R179. -/
def State.encodeChecks (s : State) : Verdict :=
  if !s.encodeArgsOk then .fail .invalidArgument
  else if hasDevice s.cfg s.buffer then .refuse .deviceInRegion
  else if s.latchStrict && s.strictFinds then .fail .strictLiteral
  else .proceed

/-- The checks of DECODE (R130, R131). An overlap of the two regions is refused (R68), and so is a device in one of
them (R58), once the arguments are valid (log entry 8). -/
def State.decodeChecks (s : State) : Verdict :=
  if !s.decodeArgsOk then .fail .invalidArgument
  else if regionsOverlap s.tokens s.output then .refuse .overlappingRegions
  else if hasDevice s.cfg s.tokens || hasDevice s.cfg s.output then .refuse .deviceInRegion
  else .proceed

/-- The checks run once, before the first token: rd = 0 says that no token has been consumed, since every token step
advances rd (R31). -/
def State.verdict (s : State) : Verdict :=
  if s.rdN = 0 then
    match s.op with
    | .enc => s.encodeChecks
    | .dec => s.decodeChecks
    | .ill => .fail .illegalCommand
  else .proceed

/-- One decode token step (R139): fetch the token at T + rd and execute it; a header with no value byte in the stream
raises TRUNCATED_STREAM (R141). The fault is for states no run reaches (R55). -/
def decodeTokenStep (s : State) : Result :=
  if s.inMemory (s.T + s.rdN) (min 2 (s.tlen - s.rdN)) then
    match decodeToken s.tokenWindow with
    | .ok (i, _) => exec i s
    | .error _ => raise .truncatedStream s
  else .fault .outsideMemory

/-- The turn of ENCODE's loop (R100): a token step while rd < n, then the completion. -/
def encodeTurn (s : State) : Result := if s.rdN < s.n then encodeTokenStep s else complete s.wr s

/-- The turn of DECODE's loop (R130, R142): a token step while rd < tlen, then the completion. -/
def decodeTurn (s : State) : Result := if s.rdN < s.tlen then decodeTokenStep s else complete s.wr s

/-- The turn of the accepted operation. A reserved word has no loop: it fails at its checks (R172). -/
def operationTurn (s : State) : Result :=
  match s.op with
  | .enc => encodeTurn s
  | .dec => decodeTurn s
  | .ill => raise .illegalCommand s

/-- One engine step. While phase = IDLE the engine does nothing (R186). -/
def engineStep (s : State) : Result :=
  match s.phase with
  | .idle => .next s
  | .active =>
    match s.verdict with
    | .proceed => operationTurn s
    | .fail e => raise e s
    | .refuse r => .refused r

end Sys2Proof.Machine
end

