-- ==== Sys2Proof/Machine/HostPort.lean ====
section
/-! DEFINITION. The host's moves (R71): the register window (R20–R28), the byte memory (R63), reset (R200, R202), and the
POLL loop (R93). -/

namespace Sys2Proof.Machine

/-- A word written to CMD (R22, R90): the command it names is executed; any other word is ILLEGAL (R91). -/
def commandWrite (w : Word) (s : State) : Result :=
  match decodeCommand w with
  | .ok i => exec i s
  | .error _ => execIllegal s

/-- A host write of a register (R20–R28): read-only and reserved ones ignore it; CTRL keeps bit 0; an address register
keeps bits ADDR_W−1:0. BUSY matters to CMD alone (R27). -/
def writeReg (r : Reg) (w : Word) (s : State) : Result :=
  match r with
  | .ctrl => .next (s.setCtrlStrict (w.getLsbD 0))
  | .cmd => commandWrite w s
  | .status => .next s
  | .srcAddr => .next (s.setSrcAddr (addrBits s.cfg w))
  | .srcLen => .next (s.setSrcLen w)
  | .dstAddr => .next (s.setDstAddr (addrBits s.cfg w))
  | .dstCap => .next (s.setDstCap w)
  | .result => .next s
  | .reserved => .next s

/-- What a host read of a register returns (R20–R28). CMD and the reserved offsets read 0. -/
def readReg (r : Reg) (s : State) : Word :=
  match r with
  | .ctrl => ctrlWord s.ctrlStrict
  | .cmd => 0#32
  | .status => s.status.word
  | .srcAddr => s.srcAddr
  | .srcLen => s.srcLen
  | .dstAddr => s.dstAddr
  | .dstCap => s.dstCap
  | .result => s.result
  | .reserved => 0#32

/-- The free bytes that a reset during an operation leaves in its write region (R202). -/
def freeBytes (from_ k : Nat) : List Byte := (List.range k).map fun i => Config.freeByte (from_ + i)

/-- The reset signal (R40, R200): every register and engine field takes its reset value; M is not reset, but each byte
of an abandoned operation's write region becomes a free value (R202). -/
def State.resetBlock (s : State) : State :=
  { State.reset with
    cfg := s.cfg
    mem := Memory.writeBytes s.mem s.writeRegion.base (freeBytes s.draws s.writeRegion.len)
    schedule := s.schedule
    observed := s.observed
    draws := s.draws + s.writeRegion.len }

/-- A host access to the byte at `a`: it must exist (R33), be plain memory (R58) and not race with the engine (R63). -/
def hostAccess (a : Nat) (s : State) (go : State → Result) : Result :=
  if s.cfg.memSize ≤ a then .fault .outsideMemory
  else if s.cfg.devices.any (inRegion · a) then .refused .deviceAccess
  else if s.mayTouch a then .refused .raceWithEngine
  else go s

/-- One host move. -/
def hostStep (m : HostMove) (s : State) : Result :=
  match m with
  | .regWrite addr width data =>
    match regAccess s.cfg addr width with
    | .ok r => writeReg r data s
    | .error e => .refused e
  | .regRead addr width =>
    match regAccess s.cfg addr width with
    | .ok r => .next (s.observe (.word (readReg r s)))
    | .error e => .refused e
  | .memWrite a v => hostAccess a s fun t => .next (t.setMem (Memory.writeByte t.mem a v))
  | .memRead a => hostAccess a s fun t => .next (t.observe (.byte (Memory.readByte t.mem a)))
  | .reset => .next s.resetBlock

/-- One round of POLL (R93) with `rest` after it: RD STATUS; if DONE = 1 go on, else the engine moves and POLL goes round
again. The state's schedule still begins with POLL. -/
def pollStep (rest : List Turn) (s : State) : Result :=
  let t := s.observe (.word s.status.word)
  if s.status.done then .next (t.setSchedule rest) else engineStep t

end Sys2Proof.Machine
end

