-- ==== Sys2Proof/Machine/Step.lean ====
section
/-! DEFINITION. The step of the whole machine, host and engine, and how one instruction is placed where the next step
takes it from. -/

namespace Sys2Proof.Machine

/-- One step: the next turn of the schedule, or the engine's when the schedule is empty (log entry 5). -/
def step (s : State) : Host.Outcome State Fault Refusal :=
  match s.schedule with
  | [] => engineStep s
  | .engine :: rest => engineStep (s.setSchedule rest)
  | .host m :: rest => hostStep m (s.setSchedule rest)
  | .poll :: rest => pollStep rest s

/-- `s` with a token stored where the engine fetches its next one, M[T + rd], and the engine's turn next. Where no
DECODE is under way, one is set up: tokens at 0, output in all the memory above them (log entry 7). -/
def State.withToken (s : State) (bytes : List Byte) : State :=
  let t :=
    if s.phase = .active ∧ s.op = .dec ∧ s.status.busy then s
    else
      { s with
        status := Status.accepted
        phase := .active
        op := .dec
        latchAddr := 0
        latchLen := 0
        latchDst := BitVec.ofNat 32 bytes.length
        latchCap := BitVec.ofNat 32 (s.cfg.memSize - bytes.length)
        rd := 0
        wr := 0 }
  { t with
    latchLen := BitVec.ofNat 32 (max t.tlen (t.rdN + bytes.length))
    mem := Memory.writeBytes t.mem (t.T + t.rdN) bytes
    schedule := .engine :: t.schedule }

/-- `s` with the engine idle and a host write of the word to CMD as the next move. -/
def State.withCommand (s : State) (w : Word) : State :=
  { s with
    status := { s.status with busy := false }
    phase := .idle
    schedule := .host (.regWrite (s.cfg.regBase + cmdOffset) 32 w) :: s.schedule }

/-- `s` with the instruction whose bits are `w` placed where step takes its next instruction from. -/
def State.withFetchWord (s : State) (nbits w : Nat) : State :=
  match tableCode nbits w with
  | none => s
  | some (.stream bytes) => s.withToken bytes
  | some (.command c) => s.withCommand c

end Sys2Proof.Machine
end

