-- ==== Sys2Proof/Machine/Functional.lean ====
section
/-! DEFINITION. The functional forms of the two algorithms on byte sequences: enc (R109) and dec (R144). The step does not
use them; the statements compare the machine with them. -/

namespace Sys2Proof.Machine

/-- One token as the encoder emits it (R106, R107). A literal may hold any byte (R110). -/
inductive Emission where
  | lit (v : Byte)
  | run (c : Nat) (v : Byte)
deriving DecidableEq, Repr

/-- The bytes of an emission. -/
def Emission.bytes : Emission → List Byte
  | .lit v => [v]
  | .run c v => [runHeader (BitVec.ofNat 7 c), v]

/-- How many input bytes an emission stands for. -/
def Emission.count : Emission → Nat
  | .lit _ => 1
  | .run c _ => c

/-- The tokens of a byte sequence (R109): at each turn the longest run at the head, capped at 127. -/
def emissionsFuel : Nat → List Byte → List Emission
  | 0, _ => []
  | _ + 1, [] => []
  | fuel + 1, v :: rest =>
    let c := leadingRun v ((v :: rest).take Config.maxCount)
    (if c = 1 then .lit v else .run c v) :: emissionsFuel fuel ((v :: rest).drop c)

/-- The tokens ENCODE emits for the input `input`. -/
def emissions (input : List Byte) : List Emission := emissionsFuel input.length input

/-- enc (R109). -/
def enc (input : List Byte) : List Byte := (emissions input).flatMap Emission.bytes

/-- How many bytes a token writes when DECODE executes it (R140, R141): 1 for a LIT, c for a RUN. -/
def outputCount : Instr → Nat
  | .lit _ => 1
  | .run c _ => c.toNat
  | .encode => 0
  | .decode => 0

/-- The recursion `go` of dec (R144): the error (noError for OK) and the bytes written from D upward. -/
def decGo (mode : OvfCheck) (cap : Nat) : List Byte → List Byte → ErrCode × List Byte
  | [], acc => (.noError, acc)
  | b :: rest, acc =>
    if isRunHeader b then
      match rest with
      | [] => (.truncatedStream, acc)
      | v :: rest' =>
        let c := (headerCount b).toNat
        if acc.length + c > cap then
          match mode with
          | .run => (.outputOverflow, acc)
          | .byte => (.outputOverflow, acc ++ List.replicate (cap - acc.length) v)
        else decGo mode cap rest' (acc ++ List.replicate c v)
    else if acc.length + 1 > cap then (.outputOverflow, acc)
    else decGo mode cap rest (acc ++ [b])

/-- dec (R144). -/
def dec (mode : OvfCheck) (cap : Nat) (stream : List Byte) : ErrCode × List Byte := decGo mode cap stream []

end Sys2Proof.Machine
end

