-- ==== Sys2Proof/Safety.lean ====
section
/-! DEFINITION. What a legal state is: the invariant that reset establishes and every step keeps; and the two ways of
varying a state that the noninterference statements speak of. -/

namespace Sys2Proof.Machine

/-- The cursors of a running operation (R31, R32), and what its first token step has already checked. -/
def State.cursorsLegal (s : State) : Prop :=
  match s.op with
  | .enc => s.rdN ≤ s.n ∧ s.wrN ≤ s.rdN ∧
      (s.rdN ≠ 0 → 0 < s.wrN ∧ s.encodeArgsOk = true ∧ hasDevice s.cfg s.buffer = false)
  | .dec => s.rdN ≤ s.tlen ∧ s.wrN ≤ s.cap ∧ (s.rdN = 0 → s.wrN = 0) ∧ (s.rdN ≠ 0 → s.decodeChecks = .proceed)
  | .ill => s.rdN = 0 ∧ s.wrN = 0

/-- What RESULT and ERR can be after a completion of the latched operation (R25, R170). -/
def State.resultLegal (s : State) : Prop :=
  match s.op with
  | .enc => (s.status.err = .noError ∧ 0 < s.result.toNat ∧ s.result.toNat ≤ s.n) ∨
      ((s.status.err = .invalidArgument ∨ s.status.err = .strictLiteral) ∧ s.result = 0x00000000#32)
  | .dec => (s.status.err = .noError ∧ s.result.toNat ≤ s.cap) ∨
      ((s.status.err = .invalidArgument ∨ s.status.err = .truncatedStream ∨ s.status.err = .outputOverflow) ∧
        s.result = 0xFFFFFFFF#32)
  | .ill => s.status.err = .illegalCommand ∧ s.result = 0xFFFFFFFF#32

/-- The invariant of the machine. -/
structure State.Inv (s : State) : Prop where
  /-- the parameters are as R6 asks -/
  cfgLegal : s.cfg.WF
  /-- M is in its canonical form -/
  memCanonical : Memory.wf s.mem
  /-- M lists no address that does not exist (R33) -/
  memInside : ∀ c ∈ s.mem, c.1 < s.cfg.memSize
  /-- the address registers and latches hold ADDR_W bits (R24, R30) -/
  addressesFit : s.srcAddr.toNat < 2 ^ s.cfg.addrW ∧ s.dstAddr.toNat < 2 ^ s.cfg.addrW ∧
    s.latchAddr.toNat < 2 ^ s.cfg.addrW ∧ s.latchDst.toNat < 2 ^ s.cfg.addrW
  /-- the phase is ACTIVE exactly while BUSY = 1 (R30) -/
  busyActive : s.status.busy = true ↔ s.phase = .active
  /-- (BUSY, DONE) is never (1, 1) (R23) -/
  busyDone : ¬(s.status.busy = true ∧ s.status.done = true)
  /-- ERR is NONE until a completion (R23, R170) -/
  errAfterDone : s.status.done = false → s.status.err = .noError
  /-- the cursors of a running operation -/
  cursors : s.phase = .active → s.cursorsLegal
  /-- RESULT and ERR after a completion -/
  results : s.status.done = true → s.resultLegal

/-- The engine's latches, op and cursors (R30), which R40 leaves unspecified while the engine is idle. -/
structure Latches where
  op     : Op
  addr   : Word
  len    : Word
  dst    : Word
  cap    : Word
  strict : Bool
  rd     : Word
  wr     : Word
deriving DecidableEq, Repr

/-- `s` with other latches. -/
def State.withLatches (s : State) (l : Latches) : State :=
  { s with
    op := l.op, latchAddr := l.addr, latchLen := l.len, latchDst := l.dst, latchCap := l.cap, latchStrict := l.strict
    rd := l.rd, wr := l.wr }

/-- `s` with other values in the five writable registers, CTRL, SRC_ADDR, SRC_LEN, DST_ADDR, DST_CAP (R27). -/
def State.withRegisters (s : State) (strict : Bool) (sa sl da dc : Word) : State :=
  { s with ctrlStrict := strict, srcAddr := sa, srcLen := sl, dstAddr := da, dstCap := dc }

/-- The outcome with its next state, if it has one, changed. -/
def Result.mapNext (f : State → State) : Result → Result
  | .next s => .next (f s)
  | .fault e => .fault e
  | .refused r => .refused r

end Sys2Proof.Machine
end

