-- ==== Sys2Proof/Certificates/Slice0/Obligations.lean ====
section
/-! DEFINITION. The statements about the model, each from a numbered rule of spec/. -/

open Sys2Proof Sys2Proof.Machine

/-! ### Encodings (30_encoding.md) -/

/-- Words written out from the spec's own encodings (R82, R83, R90, R93) decode to what they stand for. -/
def Obligations.SampleWordsDecode : Prop :=
  decodeTableWord 8 0x41 = some (.lit 0x41#8) ∧
  decodeTableWord 16 0x4183 = some (.run 3#7 0x41#8) ∧
  decodeToken [0x83#8, 65#8, 66#8] = .ok (.run 3#7 65#8, [66#8]) ∧
  decodeToken [0xFF#8, 0x7F#8, 0x85#8, 0x7F#8] = .ok (.run 127#7 0x7F#8, [0x85#8, 0x7F#8]) ∧
  decodeToken [0x80#8, 0x33#8] = .ok (.run 0#7 0x33#8, []) ∧
  decodeToken [0x85#8] = .error .truncatedRun ∧
  decodeTableWord 32 0x00000001 = some .encode ∧
  decodeTableWord 32 0x00000002 = some .decode ∧
  decodeTableWord 32 0x00000101 = none

/-- Decoding the code of a well-formed instruction gives it back, every operand kept. -/
def Obligations.DecodeUndoesEncode : Prop :=
  ∀ i : Instr, i.wellFormed = true → decode (encode i) = .ok i

/-- A stream assembled from well-formed tokens decodes to those tokens, from offset 0 upward with no gap (R80, R93). -/
def Obligations.StreamDecodeUndoesAssemble : Prop :=
  ∀ tokens : List Instr, (∀ i ∈ tokens, i.isToken = true ∧ i.wellFormed = true) →
    decodeStream (assemble tokens) = .ok tokens

/-- Whatever decodes was written so: no two spellings of a token, a stream or a command. -/
def Obligations.EncodeUndoesDecode : Prop :=
  (∀ (bytes rest : List Byte) (i : Instr), decodeToken bytes = .ok (i, rest) →
    i.isToken = true ∧ i.wellFormed = true ∧ tokenBytes i ++ rest = bytes) ∧
  (∀ (bytes : List Byte) (tokens : List Instr), decodeStream bytes = .ok tokens → assemble tokens = bytes) ∧
  (∀ (w : Word) (i : Instr), decodeCommand w = .ok i → encode i = .command w)

/-- R81: bit 7 of the first byte alone decides the kind and the length of a token. -/
def Obligations.FirstByteDecidesToken : Prop :=
  ∀ (b v : Byte) (rest : List Byte),
    (b.getLsbD 7 = false → decodeToken (b :: rest) = .ok (.lit b, rest)) ∧
    (b.getLsbD 7 = true →
      (∃ c : BitVec 7, c.toNat = b.toNat % 128 ∧ decodeToken (b :: v :: rest) = .ok (.run c v, rest)) ∧
      decodeToken [b] = .error .truncatedRun)

/-- R90: the whole word is compared; 1 is ENCODE, 2 is DECODE, any other value is illegal. -/
def Obligations.CommandWordDecoding : Prop :=
  ∀ w : Word,
    (decodeCommand w = .ok .encode ↔ w.toNat = 1) ∧
    (decodeCommand w = .ok .decode ↔ w.toNat = 2) ∧
    (decodeCommand w = .error .reservedCommand ↔ w.toNat ≠ 1 ∧ w.toNat ≠ 2)

/-! ### Reset (70_reset_and_hazards.md) -/

/-- The reset values that R40 states: every register reads 0 and the engine is idle. -/
def Obligations.ResetValues : Prop :=
  (∀ r : Reg, readReg r State.reset = 0#32) ∧
  State.reset.status.busy = false ∧ State.reset.status.done = false ∧ State.reset.status.err = .noError ∧
  State.reset.ctrlStrict = false ∧ State.reset.phase = .idle

/-- The reset signal, in every state: the registers and the phase take their reset values; M and the parameters stay
while no operation runs. -/
def Obligations.ResetSignalClearsBlock : Prop :=
  ∀ s : State, ∃ t, hostStep .reset s = .next t ∧
    (∀ r : Reg, readReg r t = 0#32) ∧ t.phase = .idle ∧ t.cfg = s.cfg ∧
    (s.phase = .idle → t.mem = s.mem)

/-- Reset during an operation abandons it; every byte of its write region is a free draw, every other byte of M keeps its
value (R202). R202 says only "a free draw": that byte i is the draw number `s.draws + i` is the model's choice (log entry
9), and so are the clip of the region to the bytes of M that exist and its being drawn for invalid arguments too (log
entry 13). -/
def Obligations.ResetDuringOperationDrawsWriteRegion : Prop :=
  ∀ s : State, s.Inv → s.phase = .active → ∃ t, hostStep .reset s = .next t ∧
    t.phase = .idle ∧ t.status.done = false ∧ t.status.err = .noError ∧
    (∀ a, inRegion s.writeRegion a = false → Memory.readByte t.mem a = Memory.readByte s.mem a) ∧
    (∀ i, i < s.writeRegion.len →
      Memory.readByte t.mem (s.writeRegion.base + i) = Config.freeByte (s.draws + i)) ∧
    (s.op = .enc → s.B + s.n ≤ s.cfg.memSize → s.writeRegion = s.buffer) ∧
    (s.op = .dec → s.D + s.cap ≤ s.cfg.memSize → s.writeRegion = s.output)

/-- R201: an ENCODE or a DECODE issued right after reset fails with INVALID_ARGUMENT, since its operands are 0. -/
def Obligations.FirstCommandAfterResetFails : Prop :=
  ∀ s : State,
    (∃ a t, exec .encode s.resetBlock = .next a ∧ engineStep a = .next t ∧
      t.status.err = .invalidArgument ∧ t.status.done = true ∧ t.result = 0x00000000#32 ∧
      t.mem = s.resetBlock.mem) ∧
    (∃ a t, exec .decode s.resetBlock = .next a ∧ engineStep a = .next t ∧
      t.status.err = .invalidArgument ∧ t.status.done = true ∧ t.result = 0xFFFFFFFF#32 ∧
      t.mem = s.resetBlock.mem)

/-! ### The register window (10_state.md) -/

/-- What an aligned 32-bit host read returns at each offset; it changes nothing but what the host has observed. -/
def Obligations.RegisterReadValues : Prop :=
  ∀ (s : State) (off : Nat), off < 0x40 → off % 4 = 0 →
    hostStep (.regRead (s.cfg.regBase + off) 32) s =
      .next (s.observe (.word
        (if off = 0x00 then (if s.ctrlStrict then 1#32 else 0#32)
         else if off = 0x08 then s.status.word
         else if off = 0x0C then s.srcAddr
         else if off = 0x10 then s.srcLen
         else if off = 0x14 then s.dstAddr
         else if off = 0x18 then s.dstCap
         else if off = 0x1C then s.result
         else 0#32)))

/-- What an aligned 32-bit host write does at each offset but CMD's, in every state, BUSY or not. -/
def Obligations.RegisterWriteEffects : Prop :=
  ∀ (s : State) (off : Nat) (w : Word), off < 0x40 → off % 4 = 0 → off ≠ 0x04 →
    ∃ t, hostStep (.regWrite (s.cfg.regBase + off) 32 w) s = .next t ∧
      (off = 0x00 → t = { s with ctrlStrict := w.getLsbD 0 }) ∧
      (off = 0x0C → ∃ x : Word, x.toNat = w.toNat % 2 ^ s.cfg.addrW % 2 ^ 32 ∧ t = { s with srcAddr := x }) ∧
      (off = 0x10 → t = { s with srcLen := w }) ∧
      (off = 0x14 → ∃ x : Word, x.toNat = w.toNat % 2 ^ s.cfg.addrW % 2 ^ 32 ∧ t = { s with dstAddr := x }) ∧
      (off = 0x18 → t = { s with dstCap := w }) ∧
      (off = 0x08 ∨ 0x1C ≤ off → t = s)

/-- The bits of STATUS (R23) and the numeric error codes (R170). -/
def Obligations.StatusWordLayout : Prop :=
  ∀ u : Status,
    u.word.getLsbD 0 = u.busy ∧ u.word.getLsbD 1 = u.done ∧
    u.word.getLsbD 2 = false ∧ u.word.getLsbD 3 = false ∧
    (∀ k, 8 ≤ k → u.word.getLsbD k = false) ∧
    u.word.toNat / 16 =
      (match u.err with
       | .noError => 0
       | .invalidArgument => 1
       | .truncatedStream => 2
       | .outputOverflow => 3
       | .strictLiteral => 4
       | .illegalCommand => 5)

/-- Register accesses that the model refuses: of another width or unaligned (R26, U10), or outside the window, which is
"the platform's business" (R28; the refusal is log entry 16). -/
def Obligations.OddRegisterAccessRefused : Prop :=
  ∀ (s : State) (addr width : Nat) (w : Word),
    (s.cfg.regBase ≤ addr → addr < s.cfg.regBase + 0x40 → (width ≠ 32 ∨ (addr - s.cfg.regBase) % 4 ≠ 0) →
      hostStep (.regWrite addr width w) s = .refused .badRegisterAccess ∧
      hostStep (.regRead addr width) s = .refused .badRegisterAccess) ∧
    (addr < s.cfg.regBase ∨ s.cfg.regBase + 0x40 ≤ addr →
      hostStep (.regWrite addr width w) s = .refused .outsideWindow ∧
      hostStep (.regRead addr width) s = .refused .outsideWindow)

/-! ### Commands (30_encoding.md R92, 10_state.md R27) -/

/-- A CMD write while BUSY = 1 is ignored and signals nothing (R215, R27), whatever its value. -/
def Obligations.CommandWhileBusyIgnored : Prop :=
  ∀ (s : State) (w : Word), s.status.busy = true →
    hostStep (.regWrite (s.cfg.regBase + 0x04) 32 w) s = .next s ∧
    exec .encode s = .next s ∧ exec .decode s = .next s

/-- R92: what acceptance does while BUSY = 0, and that it changes nothing else; ENCODE and DECODE are the acceptance of
their words; while BUSY = 1 the write is ignored. -/
def Obligations.CommandAcceptance : Prop :=
  ∀ (s : State) (w : Word),
    (s.status.busy = true → hostStep (.regWrite (s.cfg.regBase + 0x04) 32 w) s = .next s) ∧
    (s.status.busy = false →
      ∃ t, hostStep (.regWrite (s.cfg.regBase + 0x04) 32 w) s = .next t ∧
        t.op = (if w.toNat = 1 then .enc else if w.toNat = 2 then .dec else .ill) ∧
        t.latchAddr = s.srcAddr ∧ t.latchLen = s.srcLen ∧ t.latchDst = s.dstAddr ∧ t.latchCap = s.dstCap ∧
        t.latchStrict = s.ctrlStrict ∧ t.rd = 0#32 ∧ t.wr = 0#32 ∧
        t.status.busy = true ∧ t.status.done = false ∧ t.status.err = .noError ∧ t.phase = .active ∧
        t.result = s.result ∧ t.mem = s.mem ∧ t.cfg = s.cfg ∧
        t.ctrlStrict = s.ctrlStrict ∧ t.srcAddr = s.srcAddr ∧ t.srcLen = s.srcLen ∧
        t.dstAddr = s.dstAddr ∧ t.dstCap = s.dstCap ∧
        t.schedule = s.schedule ∧ t.observed = s.observed ∧ t.draws = s.draws ∧
        (w.toNat = 1 → exec .encode s = .next t) ∧ (w.toNat = 2 → exec .decode s = .next t))

/-- The frame of ENCODE and DECODE as commands, accepted or ignored: no host register, no byte of M and not RESULT. -/
def Obligations.CommandFrame : Prop :=
  ∀ (s t : State) (i : Instr), i = .encode ∨ i = .decode → exec i s = .next t →
    t.cfg = s.cfg ∧ t.ctrlStrict = s.ctrlStrict ∧ t.srcAddr = s.srcAddr ∧ t.srcLen = s.srcLen ∧
    t.dstAddr = s.dstAddr ∧ t.dstCap = s.dstCap ∧ t.result = s.result ∧
    (∀ a, Memory.readByte t.mem a = Memory.readByte s.mem a) ∧
    t.schedule = s.schedule ∧ t.observed = s.observed ∧ t.draws = s.draws

/-! ### The step -/

/-- The step takes the next turn of the schedule; with none left, and at its own turns, the engine moves. The schedule is
the model's own choice (log entries 5 and 20), not a rule of the spec. -/
def Obligations.StepTakesNextTurn : Prop :=
  ∀ (s : State) (rest : List Turn),
    (s.schedule = [] → step s = engineStep s) ∧
    (s.schedule = .engine :: rest → step s = engineStep { s with schedule := rest }) ∧
    (∀ m, s.schedule = .host m :: rest → step s = hostStep m { s with schedule := rest }) ∧
    (s.schedule = .poll :: rest →
      step s = if s.status.done then .next { s with observed := some (.word s.status.word), schedule := rest }
        else engineStep { s with observed := some (.word s.status.word) })

/-- While a DECODE runs past its checks, the engine's step is exec of the token at M[T + rd] (R139). That a step is one
token step is the model's choice (log entry 10, which D28 allows). -/
def Obligations.StepRunsFetchedToken : Prop :=
  ∀ (s : State) (i : Instr) (after : List Byte) (rest : List Turn),
    s.phase = .active → s.op = .dec → s.verdict = .proceed → s.rdN < s.tlen → s.T + s.tlen ≤ s.cfg.memSize →
    decodeToken (Memory.readBytes s.mem (s.T + s.rdN) (min 2 (s.tlen - s.rdN))) = .ok (i, after) →
    (s.schedule = [] → step s = exec i s) ∧
    (s.schedule = .engine :: rest → step s = exec i { s with schedule := rest })

/-- A host write of a command word to CMD steps to exec of the command it names (R22, R90). -/
def Obligations.StepRunsCommandWord : Prop :=
  ∀ (s : State) (w : Word) (rest : List Turn) (i : Instr),
    s.schedule = .host (.regWrite (s.cfg.regBase + 0x04) 32 w) :: rest → decodeCommand w = .ok i →
    step s = exec i { s with schedule := rest }

/-! ### The token instructions (41_decode.md) -/

/-- R140: LIT under DECODE. With room it writes its byte at D + wr and advances both cursors by 1; with wr = cap it
raises OUTPUT_OVERFLOW, writes nothing and moves no cursor. -/
def Obligations.LitExecutes : Prop :=
  ∀ (s : State) (v : Byte), s.op = .dec → Memory.wf s.mem → s.D + s.cap ≤ s.cfg.memSize →
    (s.wrN + 1 ≤ s.cap → s.rdN + 1 < 2 ^ 32 → ∃ t, exec (.lit v) s = .next t ∧
      t.rdN = s.rdN + 1 ∧ t.wrN = s.wrN + 1 ∧ t.status = s.status ∧ t.result = s.result ∧ t.phase = s.phase ∧
      (∀ a, Memory.readByte t.mem a = if a = s.D + s.wrN then v else Memory.readByte s.mem a)) ∧
    (s.cap < s.wrN + 1 → ∃ t, exec (.lit v) s = .next t ∧
      t.rd = s.rd ∧ t.wr = s.wr ∧ t.mem = s.mem ∧ t.result = 0xFFFFFFFF#32 ∧ t.phase = .idle ∧
      t.status.busy = false ∧ t.status.done = true ∧ t.status.err = .outputOverflow)

/-- R141: RUN under DECODE: truncated, fitting, and overflowing under either value of DEC_OVF_CHECK. -/
def Obligations.RunExecutes : Prop :=
  ∀ (s : State) (c : BitVec 7) (v : Byte), s.op = .dec → Memory.wf s.mem → s.D + s.cap ≤ s.cfg.memSize → s.wrN ≤ s.cap →
    (s.tlen ≤ s.rdN + 1 → ∃ t, exec (.run c v) s = .next t ∧
      t.rd = s.rd ∧ t.wr = s.wr ∧ t.mem = s.mem ∧ t.result = 0xFFFFFFFF#32 ∧ t.phase = .idle ∧
      t.status.busy = false ∧ t.status.done = true ∧ t.status.err = .truncatedStream) ∧
    (s.rdN + 1 < s.tlen → s.wrN + c.toNat ≤ s.cap → ∃ t, exec (.run c v) s = .next t ∧
      t.rdN = s.rdN + 2 ∧ t.wrN = s.wrN + c.toNat ∧ t.status = s.status ∧ t.result = s.result ∧ t.phase = s.phase ∧
      (∀ a, Memory.readByte t.mem a =
        if s.D + s.wrN ≤ a ∧ a < s.D + s.wrN + c.toNat then v else Memory.readByte s.mem a)) ∧
    (s.rdN + 1 < s.tlen → s.cap < s.wrN + c.toNat → ∃ t, exec (.run c v) s = .next t ∧
      t.rd = s.rd ∧ t.result = 0xFFFFFFFF#32 ∧ t.phase = .idle ∧
      t.status.busy = false ∧ t.status.done = true ∧ t.status.err = .outputOverflow ∧
      (s.cfg.decOvfCheck = .run → t.wr = s.wr ∧ t.mem = s.mem) ∧
      (s.cfg.decOvfCheck = .byte → t.wrN = s.cap ∧
        (∀ a, Memory.readByte t.mem a =
          if s.D + s.wrN ≤ a ∧ a < s.D + s.cap then v else Memory.readByte s.mem a)))

/-- The frame of LIT and RUN, wherever exec gives a next state: no host register, parameter or latch changes; STATUS,
RESULT and phase change only by a failure completion; and no byte of M changes but the token's own output bytes, none of
them at D + cap or above. -/
def Obligations.TokenFrame : Prop :=
  ∀ (s t : State) (i : Instr), i.isToken = true → Memory.wf s.mem → exec i s = .next t →
    t.cfg = s.cfg ∧ t.ctrlStrict = s.ctrlStrict ∧ t.srcAddr = s.srcAddr ∧ t.srcLen = s.srcLen ∧
    t.dstAddr = s.dstAddr ∧ t.dstCap = s.dstCap ∧ t.op = s.op ∧ t.latchAddr = s.latchAddr ∧
    t.latchLen = s.latchLen ∧ t.latchDst = s.latchDst ∧ t.latchCap = s.latchCap ∧ t.latchStrict = s.latchStrict ∧
    t.schedule = s.schedule ∧ t.observed = s.observed ∧ t.draws = s.draws ∧
    ((t.status = s.status ∧ t.result = s.result ∧ t.phase = s.phase) ∨
      ((t.status = Status.completed .outputOverflow ∨ t.status = Status.completed .truncatedStream) ∧
        t.result = failureResult s.op ∧ t.phase = .idle ∧ t.rd = s.rd)) ∧
    (∀ a, (a < s.D + s.wrN ∨ s.D + s.wrN + outputCount i ≤ a ∨ s.D + s.cap ≤ a) →
      Memory.readByte t.mem a = Memory.readByte s.mem a)

/-- R146 and R141 at the fetch: a run header that is the stream's last byte raises TRUNCATED_STREAM, whatever the
capacity, and nothing is written. -/
def Obligations.TruncatedHeaderFails : Prop :=
  ∀ s : State, s.phase = .active → s.op = .dec → s.verdict = .proceed → s.rdN + 1 = s.tlen →
    s.T + s.tlen ≤ s.cfg.memSize → 0x80 ≤ (Memory.readByte s.mem (s.T + s.rdN)).toNat →
    ∃ t, engineStep s = .next t ∧ t.mem = s.mem ∧ t.rd = s.rd ∧ t.wr = s.wr ∧ t.result = 0xFFFFFFFF#32 ∧
      t.phase = .idle ∧ t.status.busy = false ∧ t.status.done = true ∧ t.status.err = .truncatedStream

/-- A DECODE with valid arguments whose token and output regions overlap is refused (R68); when is log entry 8. -/
def Obligations.OverlappingDecodeRefused : Prop :=
  ∀ s : State, s.phase = .active → s.op = .dec → s.rdN = 0 → s.tlen ≠ 0 → s.T + s.tlen ≤ s.cfg.memSize →
    s.D + s.cap ≤ s.cfg.memSize →
    (∃ a, (s.T ≤ a ∧ a < s.T + s.tlen) ∧ (s.D ≤ a ∧ a < s.D + s.cap)) →
    engineStep s = .refused .overlappingRegions

/-! ### Checks and completions (40_encode.md, 41_decode.md, 60_exceptions.md) -/

/-- R172: a reserved command word fails at once with ILLEGAL_COMMAND and RESULT = 0xFFFFFFFF; it writes no byte of M and
reads none, since over any other memory it does the same. -/
def Obligations.IllegalCommandFails : Prop :=
  ∀ (s : State) (w : Word), s.status.busy = false → w.toNat ≠ 1 → w.toNat ≠ 2 →
    ∃ a t, hostStep (.regWrite (s.cfg.regBase + 0x04) 32 w) s = .next a ∧ engineStep a = .next t ∧
      t.mem = s.mem ∧ t.result = 0xFFFFFFFF#32 ∧ t.phase = .idle ∧
      t.status.busy = false ∧ t.status.done = true ∧ t.status.err = .illegalCommand ∧
      ∀ m, engineStep (a.setMem m) = .next (t.setMem m)

/-- R101: ENCODE fails with INVALID_ARGUMENT when n = 0 or its buffer is not present; it writes no byte of M and reads
none, since over any other memory it does the same. -/
def Obligations.EncodeInvalidArgument : Prop :=
  ∀ s : State, s.phase = .active → s.op = .enc → s.rdN = 0 → (s.n = 0 ∨ s.cfg.memSize < s.B + s.n) →
    ∃ t, engineStep s = .next t ∧ t.mem = s.mem ∧ t.result = 0x00000000#32 ∧ t.phase = .idle ∧
      t.status.busy = false ∧ t.status.done = true ∧ t.status.err = .invalidArgument ∧
      ∀ m, engineStep (s.setMem m) = .next (t.setMem m)

/-- R131: DECODE fails with INVALID_ARGUMENT when tlen = 0 or a region is not present; it writes no byte of M and reads
none, since over any other memory it does the same. -/
def Obligations.DecodeInvalidArgument : Prop :=
  ∀ s : State, s.phase = .active → s.op = .dec → s.rdN = 0 →
    (s.tlen = 0 ∨ s.cfg.memSize < s.T + s.tlen ∨ s.cfg.memSize < s.D + s.cap) →
    ∃ t, engineStep s = .next t ∧ t.mem = s.mem ∧ t.result = 0xFFFFFFFF#32 ∧ t.phase = .idle ∧
      t.status.busy = false ∧ t.status.done = true ∧ t.status.err = .invalidArgument ∧
      ∀ m, engineStep (s.setMem m) = .next (t.setMem m)

/-- R104: with strict = 1 the check raises STRICT_LITERAL exactly when ENCODE would emit a literal ≥ 0x80 (LITERAL), or
exactly when the input holds a byte ≥ 0x80 (ALL), leaving M unchanged and RESULT 0; with strict = 0 it does not run. -/
def Obligations.StrictCheckRejects : Prop :=
  ∀ s : State, s.phase = .active → s.op = .enc → s.rdN = 0 → s.encodeArgsOk = true →
    hasDevice s.cfg s.buffer = false →
    (s.latchStrict = false → s.verdict = .proceed) ∧
    (s.latchStrict = true →
      ((match s.cfg.strictScope with
        | .all => ∃ v ∈ Memory.readBytes s.mem s.B s.n, 0x80 ≤ v.toNat
        | .literal => ∃ v, Emission.lit v ∈ emissions (Memory.readBytes s.mem s.B s.n) ∧ 0x80 ≤ v.toNat) →
        ∃ t, engineStep s = .next t ∧ t.mem = s.mem ∧ t.result = 0x00000000#32 ∧ t.phase = .idle ∧
          t.status.busy = false ∧ t.status.done = true ∧ t.status.err = .strictLiteral) ∧
      ((match s.cfg.strictScope with
        | .all => ∀ v ∈ Memory.readBytes s.mem s.B s.n, v.toNat < 0x80
        | .literal => ∀ v, Emission.lit v ∈ emissions (Memory.readBytes s.mem s.B s.n) → v.toNat < 0x80) →
        s.verdict = .proceed))

/-- R175 and R176: what the two completions write, and that after either one the engine does nothing more. -/
def Obligations.CompletionEffects : Prop :=
  ∀ (s : State) (r : Word) (e : ErrCode),
    (∃ t, complete r s = .next t ∧ engineStep t = .next t ∧
      t = { s with result := r, status := { busy := false, done := true, err := .noError }, phase := .idle }) ∧
    (∃ t, raise e s = .next t ∧ engineStep t = .next t ∧
      t = { s with
        result := if s.op = .enc then 0x00000000#32 else 0xFFFFFFFF#32
        status := { busy := false, done := true, err := e }
        phase := .idle })

/-- R102: an ENCODE that ends in failure has RESULT = 0 and wrote no byte of M; one that ends in success has RESULT ≥ 1. So
RESULT = 0 exactly when it failed. -/
def Obligations.EncodeResultZeroIffFailed : Prop :=
  ∀ s t : State, s.Inv → s.phase = .active → s.op = .enc → engineStep s = .next t → t.phase = .idle →
    (t.result = 0x00000000#32 ↔ t.status.err ≠ .noError) ∧
    (t.status.err = .noError ∨ t.status.err = .invalidArgument ∨ t.status.err = .strictLiteral) ∧
    (t.status.err ≠ .noError → t.mem = s.mem ∧ s.rdN = 0)

/-- R142 and R175: when the input or the stream is consumed, the operation completes with RESULT = wr. -/
def Obligations.ConsumedInputCompletes : Prop :=
  ∀ s : State, s.phase = .active → s.rdN ≠ 0 → s.rdN = s.latchLen.toNat → (s.op = .enc ∨ s.op = .dec) →
    ∃ t, engineStep s = .next t ∧ t.result = s.wr ∧ t.phase = .idle ∧ t.status.busy = false ∧
      t.status.done = true ∧ t.status.err = .noError ∧ t.mem = s.mem

/-! ### The encoder's token step (40_encode.md) -/

/-- R103: runlen is the largest c with 1 ≤ c ≤ min(127, k) such that the c bytes from a are equal. -/
def Obligations.RunLengthIsLargest : Prop :=
  ∀ (m : Memory) (a k : Nat), 0 < k →
    1 ≤ runlen m a k ∧ runlen m a k ≤ min 127 k ∧
    (∀ i, i < runlen m a k → Memory.readByte m (a + i) = Memory.readByte m a) ∧
    (∀ c, c ≤ min 127 k → (∀ i, i < c → Memory.readByte m (a + i) = Memory.readByte m a) → c ≤ runlen m a k)

/-- R105, R106, R107: one token step of ENCODE emits one literal byte for a run of one, `0x80 | c` and the value for a
run of c ≥ 2, at B + wr; rd advances by the run length and wr by the token's length; nothing else changes. -/
def Obligations.EncodeTokenStepEmits : Prop :=
  ∀ (s : State) (c : Nat) (v : Byte), s.phase = .active → s.op = .enc → s.verdict = .proceed → s.rdN < s.n →
    s.wrN ≤ s.rdN → s.B + s.n ≤ s.cfg.memSize → Memory.wf s.mem →
    v = Memory.readByte s.mem (s.B + s.rdN) → c = runlen s.mem (s.B + s.rdN) (s.n - s.rdN) →
    ∃ t, engineStep s = .next t ∧ t.rdN = s.rdN + c ∧
      t.wrN = s.wrN + (if c = 1 then 1 else 2) ∧
      (c = 1 → ∀ a, Memory.readByte t.mem a = if a = s.B + s.wrN then v else Memory.readByte s.mem a) ∧
      (c ≠ 1 → ∃ h : Byte, h.toNat = 0x80 + c ∧ ∀ a, Memory.readByte t.mem a =
        if a = s.B + s.wrN then h else if a = s.B + s.wrN + 1 then v else Memory.readByte s.mem a) ∧
      t = { s with rd := t.rd, wr := t.wr, mem := t.mem }

/-- R108: in-place safety. Before and after a token step wr ≤ rd; the step writes only below the new read cursor; and the
step after it reads at the new read cursor and above only: over any memory that agrees with M there it does the same and
writes the same bytes. -/
def Obligations.EncodeInPlaceSafe : Prop :=
  ∀ s t : State, s.Inv → s.phase = .active → s.op = .enc → engineStep s = .next t → t.phase = .active →
    s.wrN ≤ s.rdN ∧ t.wrN ≤ t.rdN ∧ s.rdN < t.rdN ∧
    (∀ a, s.B + t.rdN ≤ a → Memory.readByte t.mem a = Memory.readByte s.mem a) ∧
    (∀ m, Memory.wf m → (∀ a, s.B + t.rdN ≤ a → Memory.readByte m a = Memory.readByte t.mem a) →
      ∃ u v, engineStep t = .next u ∧ engineStep (t.setMem m) = .next v ∧ v = u.setMem v.mem ∧
        ∀ a, s.B + t.wrN ≤ a → a < s.B + u.wrN → Memory.readByte v.mem a = Memory.readByte u.mem a)

/-! ### Invariants and whole-machine rules -/

/-- The invariant holds at reset. -/
def Obligations.ResetIsLegal : Prop := State.reset.Inv

/-- Every step, whoever moves, keeps the invariant. -/
def Obligations.StepKeepsLegal : Prop :=
  ∀ s t : State, s.Inv → step s = .next t → t.Inv

/-- From a legal state the engine never faults (R55): it moves, or refuses at an operation's start because the program
breaks R68 or the platform breaks R58 (log entry 8). -/
def Obligations.EngineNeverLeavesMemory : Prop :=
  ∀ s : State, s.Inv →
    (∃ t, engineStep s = .next t) ∨
    (s.phase = .active ∧ s.rdN = 0 ∧
      ((s.op = .dec ∧ regionsOverlap s.tokens s.output = true ∧ engineStep s = .refused .overlappingRegions) ∨
       (s.op = .dec ∧ (hasDevice s.cfg s.tokens = true ∨ hasDevice s.cfg s.output = true) ∧
         engineStep s = .refused .deviceInRegion) ∨
       (s.op = .enc ∧ hasDevice s.cfg s.buffer = true ∧ engineStep s = .refused .deviceInRegion)))

/-- R56: an engine step changes bytes of the operation's write region only, and none when its arguments are invalid. -/
def Obligations.EngineFootprint : Prop :=
  ∀ (s t : State) (a : Nat), s.Inv → engineStep s = .next t → Memory.readByte t.mem a ≠ Memory.readByte s.mem a →
    s.phase = .active ∧ s.mayTouch a = true ∧
    ((s.op = .enc ∧ s.B ≤ a ∧ a < s.B + s.n) ∨ (s.op = .dec ∧ s.D ≤ a ∧ a < s.D + s.cap))

/-- R31, R32: while an operation goes on, rd advances by the token's length (DECODE) or its run length (ENCODE) and never
passes the end, and wr never decreases and never passes its bound. -/
def Obligations.CursorsAdvance : Prop :=
  ∀ s t : State, s.Inv → s.phase = .active → engineStep s = .next t → t.phase = .active →
    t.op = s.op ∧ s.wrN ≤ t.wrN ∧
    ((s.op = .enc ∧ s.rdN + 1 ≤ t.rdN ∧ t.rdN ≤ s.rdN + 127 ∧ t.rdN ≤ s.n ∧ t.wrN ≤ t.rdN) ∨
     (s.op = .dec ∧ (t.rdN = s.rdN + 1 ∨ t.rdN = s.rdN + 2) ∧ t.rdN ≤ s.tlen ∧ t.wrN ≤ s.cap))

/-- Only these events change STATUS and RESULT, over all moves: RESULT changes at a completion or at reset; DONE is set
by a completion alone and cleared by a CMD write or reset; BUSY is set by a CMD write and cleared by a completion or
reset; ERR changes at a completion, and by an accepted CMD write or reset, which clear it; the parameters never change
(R23, R25, R92, R175, R176). -/
def Obligations.StatusAndResultChangeOnlySo : Prop :=
  ∀ s t : State, s.Inv → step s = .next t →
    t.cfg = s.cfg ∧
    (t.result ≠ s.result →
      (s.status.busy = true ∧ t.status.done = true) ∨ s.schedule.head? = some (.host .reset)) ∧
    (s.status.done = true → t.status.done = false →
      (∃ w, s.schedule.head? = some (.host (.regWrite (s.cfg.regBase + 0x04) 32 w))) ∨
        s.schedule.head? = some (.host .reset)) ∧
    (s.status.busy = false → t.status.busy = true →
      ∃ w, s.schedule.head? = some (.host (.regWrite (s.cfg.regBase + 0x04) 32 w))) ∧
    (s.status.busy = true → t.status.busy = false →
      t.status.done = true ∨ s.schedule.head? = some (.host .reset)) ∧
    (s.status.done = false → t.status.done = true → s.status.busy = true ∧ t.status.busy = false) ∧
    (t.status.err ≠ s.status.err →
      (s.status.busy = true ∧ t.status.busy = false ∧ t.status.done = true) ∨
      (t.status.err = .noError ∧ s.status.busy = false ∧ t.status.busy = true ∧
        ∃ w, s.schedule.head? = some (.host (.regWrite (s.cfg.regBase + 0x04) 32 w))) ∨
      (t.status.err = .noError ∧ s.schedule.head? = some (.host .reset)))

/-! ### The algorithms (40_encode.md R109–R113, 41_decode.md R143–R150) -/

/-- An ENCODE that passes its checks is accepted and completes with RESULT = |enc(S)|, the tokens enc(S) at B, and every
other byte of M (the input's tail among them) as it was (R92, R109). The bound of n + 1 engine steps counts the model's
steps: R113 and R220 bound the token steps by n, and that the checks run in the first token's step and the completion is a
step of its own is the model's choice (log entry 10). -/
def Obligations.EncodeFunctionalForm : Prop :=
  ∀ (s : State) (input : List Byte), s.status.busy = false → s.schedule = [] → Memory.wf s.mem →
    (s.accept .enc).encodeChecks = .proceed → input = Memory.readBytes s.mem s.srcAddr.toNat s.srcLen.toNat →
    exec .encode s = .next (s.accept .enc) ∧
    ∃ k t, k ≤ s.srcLen.toNat + 1 ∧ core.run k (s.accept .enc) = .next t ∧
      t.phase = .idle ∧ t.status.busy = false ∧ t.status.done = true ∧ t.status.err = .noError ∧
      t.result.toNat = (enc input).length ∧
      (∀ a, Memory.readByte t.mem a =
        if s.srcAddr.toNat ≤ a ∧ a < s.srcAddr.toNat + (enc input).length
        then (enc input).getD (a - s.srcAddr.toNat) 0 else Memory.readByte s.mem a)

/-- A DECODE that passes its checks is accepted and completes as dec(X, cap) says: the error or success, RESULT, the bytes
written from D upward, and every other byte of M as it was (R92, R144). The bound of tlen + 1 engine steps counts the
model's steps: R149 and R220 bound the token steps by tlen, and that the checks run in the first token's step and the
completion is a step of its own is the model's choice (log entry 10). -/
def Obligations.DecodeFunctionalForm : Prop :=
  ∀ (s : State) (stream : List Byte) (e : ErrCode) (out : List Byte), s.status.busy = false → s.schedule = [] →
    Memory.wf s.mem → (s.accept .dec).decodeChecks = .proceed →
    stream = Memory.readBytes s.mem s.srcAddr.toNat s.srcLen.toNat →
    (e, out) = dec s.cfg.decOvfCheck s.dstCap.toNat stream →
    exec .decode s = .next (s.accept .dec) ∧
    ∃ k t, k ≤ s.srcLen.toNat + 1 ∧ core.run k (s.accept .dec) = .next t ∧
      t.phase = .idle ∧ t.status.busy = false ∧ t.status.done = true ∧ t.status.err = e ∧
      (e = .noError → t.result.toNat = out.length) ∧ (e ≠ .noError → t.result = 0xFFFFFFFF#32) ∧
      out.length ≤ s.dstCap.toNat ∧
      (∀ a, Memory.readByte t.mem a =
        if s.dstAddr.toNat ≤ a ∧ a < s.dstAddr.toNat + out.length
        then out.getD (a - s.dstAddr.toNat) 0 else Memory.readByte s.mem a)

/-- R111: enc never expands, keeps the length exactly when every run token has count 2, and is the identity on input with
no two adjacent equal bytes. -/
def Obligations.EncodeLengthLaw : Prop :=
  ∀ input : List Byte,
    (enc input).length ≤ input.length ∧
    ((enc input).length = input.length ↔ ∀ c v, Emission.run c v ∈ emissions input → c = 2) ∧
    ((∀ i, i + 1 < input.length → input.getD i 0 ≠ input.getD (i + 1) 0) → enc input = input)

/-- R112: a maximal run of L copies of v is emitted as ⌊L / 127⌋ tokens RUN 127, v, and the remainder as nothing, a
literal, or one more run. -/
def Obligations.RunSplitting : Prop :=
  ∀ (before after : List Byte) (v : Byte) (len : Nat), 0 < len →
    before.getLast? ≠ some v → after.head? ≠ some v →
    emissions (before ++ List.replicate len v ++ after) =
      emissions before ++
      (List.replicate (len / 127) (Emission.run 127 v) ++
        (if len % 127 = 0 then [] else if len % 127 = 1 then [Emission.lit v] else [Emission.run (len % 127) v])) ++
      emissions after

/-- R147 on byte sequences: if enc(S) has no literal ≥ 0x80 and cap ≥ |S|, then dec(enc(S)) is S, under either value of
DEC_OVF_CHECK. -/
def Obligations.RoundTripOnSequences : Prop :=
  ∀ (input : List Byte) (mode : OvfCheck) (cap : Nat), input.length ≤ cap →
    (∀ v, Emission.lit v ∈ emissions input → v.toNat < 0x80) →
    dec mode cap (enc input) = (.noError, input)

/-- R147 on the machine: ENCODE a buffer of bytes 0–127 in place, then DECODE its first RESULT bytes into a disjoint
region of capacity at least n: the DECODE succeeds with RESULT = n and writes the original bytes. -/
def Obligations.RoundTripOnMachine : Prop :=
  ∀ (s : State) (d cap : Word), s.status.busy = false → s.schedule = [] → Memory.wf s.mem →
    hasDevice s.cfg { base := s.srcAddr.toNat, len := s.srcLen.toNat } = false →
    hasDevice s.cfg { base := d.toNat, len := cap.toNat } = false →
    0 < s.srcLen.toNat → s.srcAddr.toNat + s.srcLen.toNat ≤ s.cfg.memSize →
    (∀ i, i < s.srcLen.toNat → (Memory.readByte s.mem (s.srcAddr.toNat + i)).toNat ≤ 0x7F) →
    s.srcLen.toNat ≤ cap.toNat → d.toNat + cap.toNat ≤ s.cfg.memSize →
    (d.toNat + cap.toNat ≤ s.srcAddr.toNat ∨ s.srcAddr.toNat + s.srcLen.toNat ≤ d.toNat) →
    ∃ k t, core.run k (s.accept .enc) = .next t ∧ t.phase = .idle ∧ t.status.err = .noError ∧
      ∃ j u, core.run j (({ t with srcLen := t.result, dstAddr := d, dstCap := cap } : State).accept .dec) = .next u ∧
        u.phase = .idle ∧ u.status.err = .noError ∧ u.result.toNat = s.srcLen.toNat ∧
        (∀ i, i < s.srcLen.toNat →
          Memory.readByte u.mem (d.toNat + i) = Memory.readByte s.mem (s.srcAddr.toNat + i))

/-- R110: a literal v ≥ 0x80 is emitted unchanged; as the last token it makes the DECODE fail with TRUNCATED_STREAM.
Before any further token, LIT or RUN, it is read as a run header whose value is that token's first byte b: the decoding
goes on behind b, it signals an error only if the bytes behind b do, and its output is not the input. (The last is said
for v > 0x80: a header of count 0 writes nothing.) -/
def Obligations.OutOfDomainLiterals : Prop :=
  ∀ (v w : Byte) (mode : OvfCheck) (cap : Nat), 0x80 ≤ v.toNat →
    enc [v] = [v] ∧ dec mode cap (enc [v]) = (.truncatedStream, []) ∧
    (∀ (input : List Byte) (es : List Emission), emissions input = es ++ [Emission.lit v] →
      (∀ u, Emission.lit u ∈ es → u.toNat < 0x80) → input.length ≤ cap →
      (dec mode cap (enc input)).1 = .truncatedStream) ∧
    (w ≠ v → v.toNat % 128 ≤ cap →
      enc [v, w] = [v, w] ∧ dec mode cap (enc [v, w]) = (.noError, List.replicate (v.toNat % 128) w)) ∧
    (∀ (input : List Byte) (es rest : List Emission) (e : Emission) (b : Byte) (more after : List Byte) (size : Nat),
      emissions input = es ++ Emission.lit v :: e :: rest → (∀ u, Emission.lit u ∈ es → u.toNat < 0x80) →
      e.bytes = b :: more → after = more ++ rest.flatMap Emission.bytes →
      size = (es.map Emission.count).sum → size + v.toNat % 128 ≤ cap →
      dec mode cap (enc input) = decGo mode cap after (input.take size ++ List.replicate (v.toNat % 128) b) ∧
      ((dec mode cap (enc input)).1 = .noError ↔
        ∃ tokens, decodeStream after = .ok tokens ∧
          size + v.toNat % 128 + (tokens.map outputCount).sum ≤ cap) ∧
      (0x80 < v.toNat → (dec mode cap (enc input)).2 ≠ input))

/-- R148: DECODE of X succeeds exactly when X parses into tokens whose total output length is at most cap, under either
value of DEC_OVF_CHECK; the two modes report the same code and differ only in the bytes left after an overflow; with a
truncated final header the code is TRUNCATED_STREAM when the earlier tokens fit, else OUTPUT_OVERFLOW. -/
def Obligations.DecodeSuccessCondition : Prop :=
  ∀ (cap : Nat) (stream : List Byte),
    (∀ mode, (dec mode cap stream).1 = .noError ↔
      ∃ tokens, decodeStream stream = .ok tokens ∧ (tokens.map outputCount).sum ≤ cap) ∧
    (dec .run cap stream).1 = (dec .byte cap stream).1 ∧
    (dec .run cap stream).2 <+: (dec .byte cap stream).2 ∧
    ((dec .run cap stream).1 ≠ .outputOverflow → dec .run cap stream = dec .byte cap stream) ∧
    (∀ mode tokens b, (∀ i ∈ tokens, i.isToken = true ∧ i.wellFormed = true) → b.getLsbD 7 = true →
      stream = assemble tokens ++ [b] →
      (dec mode cap stream).1 =
        if (tokens.map outputCount).sum ≤ cap then .truncatedStream else .outputOverflow)

/-- R150: a stream of count-0 run tokens alone succeeds with an empty output, whatever cap is. -/
def Obligations.EmptyOutputSucceeds : Prop :=
  ∀ (values : List Byte) (mode : OvfCheck) (cap : Nat),
    dec mode cap (values.flatMap fun v => [0x80#8, v]) = (.noError, [])

/-- R87: where every literal of enc(S) is < 0x80, the stream parses into tokens that stand for |S| bytes, every literal
is < 0x80, every run header is in 0x82–0xFF, and a run of count < 127 is not followed by a token of the same value. -/
def Obligations.EncodedStreamIsCanonical : Prop :=
  ∀ input : List Byte, (∀ v, Emission.lit v ∈ emissions input → v.toNat < 0x80) →
    ∃ tokens, decodeStream (enc input) = .ok tokens ∧ (tokens.map outputCount).sum = input.length ∧
      (∀ v, Instr.lit v ∈ tokens → v.toNat < 0x80) ∧
      (∀ c v, Instr.run c v ∈ tokens → 0x82 ≤ (runHeader c).toNat) ∧
      (∀ before c v next after, tokens = before ++ Instr.run c v :: next :: after → c.toNat < 127 →
        next ≠ Instr.lit v ∧ ∀ d, next ≠ Instr.run d v)

/-- R149: DECODE writes at most min(cap, 127 × ⌊tlen/2⌋ + (tlen mod 2)) bytes. -/
def Obligations.DecodeOutputBound : Prop :=
  ∀ (mode : OvfCheck) (cap : Nat) (stream : List Byte),
    (dec mode cap stream).2.length ≤ min cap (127 * (stream.length / 2) + stream.length % 2)

/-! ### Termination (70_reset_and_hazards.md R220) -/

/-- Every accepted command of a legal state completes within len + 1 engine steps, or is refused (R68, R58). The one step
more than R220's bound on token steps is the model's completion step (log entry 10). -/
def Obligations.OperationsTerminate : Prop :=
  ∀ s : State, s.Inv → s.phase = .active → s.schedule = [] →
    ∃ k, k ≤ s.latchLen.toNat + 1 ∧
      ((∃ t, core.run k s = .next t ∧ t.phase = .idle ∧ t.status.done = true) ∨
       (∃ r, core.run k s = .refused r ∧ (r = .overlappingRegions ∨ r = .deviceInRegion)))

/-- POLL terminates (R93, R220): from a legal state with an operation running, the loop ends with DONE = 1 observed, or
the operation is refused. POLL as turns of the schedule is the model's choice (log entry 20). -/
def Obligations.PollTerminates : Prop :=
  ∀ (s : State) (rest : List Turn), s.Inv → s.phase = .active → s.schedule = .poll :: rest →
    ∃ k, k ≤ s.latchLen.toNat + 2 ∧
      ((∃ t, core.run k s = .next t ∧ t.schedule = rest ∧ t.status.done = true ∧
        t.observed = some (.word t.status.word)) ∨
       (∃ r, core.run k s = .refused r ∧ (r = .overlappingRegions ∨ r = .deviceInRegion)))

/-! ### Host and engine together (20_memory.md R63, 10_state.md R27, R35) -/

/-- R27: the running operation does not see writes to CTRL, SRC_ADDR, SRC_LEN, DST_ADDR or DST_CAP: the engine does the
same whatever those registers hold, and leaves them as they are. -/
def Obligations.RegisterWritesUnseenByEngine : Prop :=
  ∀ (s : State) (strict : Bool) (sa sl da dc : Word),
    engineStep (s.withRegisters strict sa sl da dc) =
      Result.mapNext (fun t => t.withRegisters strict sa sl da dc) (engineStep s)

/-- R35, R40: while the engine is idle its latches and cursors are never read: two states that differ in nothing else
take the same step up to them, and exactly the same one when a command is accepted. -/
def Obligations.IdleLatchesUnread : Prop :=
  ∀ (s : State) (l z : Latches), s.phase = .idle → s.status.busy = false →
    Result.mapNext (fun t => t.withLatches z) (step (s.withLatches l)) =
      Result.mapNext (fun t => t.withLatches z) (step s) ∧
    (∀ t, step s = .next t → t.phase = .active → step (s.withLatches l) = .next t)

/-- R63: a host write to a byte outside the running operation's bytes does not interact with it: the engine's step and
the host's write can be exchanged. -/
def Obligations.HostWriteElsewhereCommutes : Prop :=
  ∀ (s : State) (a : Nat) (v : Byte), s.Inv → s.phase = .active → s.mayTouch a = false →
    engineStep (s.setMem (Memory.writeByte s.mem a v)) =
      Result.mapNext (fun t => t.setMem (Memory.writeByte t.mem a v)) (engineStep s)

/-- R63, U8: while BUSY, a host access to a byte the operation may touch is refused; R56 says which bytes those are. -/
def Obligations.RacingAccessRefused : Prop :=
  ∀ (s : State) (a : Nat) (v : Byte), s.phase = .active → a < s.cfg.memSize →
    (∀ r ∈ s.cfg.devices, inRegion r a = false) →
    ((s.op = .enc ∧ s.n ≠ 0 ∧ s.B + s.n ≤ s.cfg.memSize ∧ s.B ≤ a ∧ a < s.B + s.n) ∨
     (s.op = .dec ∧ s.tlen ≠ 0 ∧ s.T + s.tlen ≤ s.cfg.memSize ∧ s.D + s.cap ≤ s.cfg.memSize ∧
       ((s.T ≤ a ∧ a < s.T + s.tlen) ∨ (s.D ≤ a ∧ a < s.D + s.cap)))) →
    hostStep (.memWrite a v) s = .refused .raceWithEngine ∧ hostStep (.memRead a) s = .refused .raceWithEngine

/-- Host accesses to M that race with nothing: a read returns the byte and changes nothing else; a write changes that
byte alone; an address that does not exist faults (R33, R58, R63, R71; the fault is log entry 23). -/
def Obligations.HostMemoryAccess : Prop :=
  ∀ (s : State) (a : Nat) (v : Byte), Memory.wf s.mem →
    (s.cfg.memSize ≤ a →
      hostStep (.memRead a) s = .fault .outsideMemory ∧ hostStep (.memWrite a v) s = .fault .outsideMemory) ∧
    (a < s.cfg.memSize → (∀ r ∈ s.cfg.devices, inRegion r a = false) → s.mayTouch a = false →
      hostStep (.memRead a) s = .next { s with observed := some (.byte (Memory.readByte s.mem a)) } ∧
      ∃ m, hostStep (.memWrite a v) s = .next { s with mem := m } ∧ Memory.wf m ∧
        ∀ b, Memory.readByte m b = if b = a then v else Memory.readByte s.mem b)
end

