-- ==== Sys2Proof/Laws/Memory.lean ====
section
/-! SUPPORT. What the byte memory's operations do: reads after writes, the canonical form kept, and equal reads give
equal memories. -/

namespace Sys2Proof.Machine

theorem readByte_insertByte (m : Memory) (a b : Nat) (v : Byte) :
    Memory.readByte (Memory.insertByte m a v) b = if b = a then v else Memory.readByte m b := by
  induction m with
  | nil => simp [Memory.insertByte, Memory.readByte]
  | cons c m ih =>
    obtain ⟨c, x⟩ := c
    simp only [Memory.insertByte]
    split
    · simp only [Memory.readByte]
    · split
      · subst_vars; simp only [Memory.readByte]; split <;> rfl
      · simp only [Memory.readByte, ih]; split <;> split <;> simp_all

theorem readByte_of_lt_all {m : Memory} {a : Nat} (h : ∀ c ∈ m, a < c.1) : Memory.readByte m a = unlistedByte := by
  induction m with
  | nil => rfl
  | cons c m ih =>
    have h0 := h c (by simp)
    simp only [Memory.readByte]
    rw [if_neg (by omega)]
    exact ih fun d hd => h d (by simp [hd])

theorem readByte_eraseByte {m : Memory} (hm : Memory.wf m) (a b : Nat) :
    Memory.readByte (Memory.eraseByte m a) b = if b = a then unlistedByte else Memory.readByte m b := by
  induction m with
  | nil => simp [Memory.eraseByte, Memory.readByte]
  | cons c m ih =>
    obtain ⟨c, x⟩ := c
    have hlt : ∀ d ∈ m, c < d.1 := (List.pairwise_cons.1 hm.1).1
    have hm' : Memory.wf m := ⟨(List.pairwise_cons.1 hm.1).2, fun d hd => hm.2 d (by simp [hd])⟩
    simp only [Memory.eraseByte]
    split
    · subst_vars
      by_cases hb : b = c
      · subst hb; simp [readByte_of_lt_all hlt]
      · simp [Memory.readByte, hb]
    · simp only [Memory.readByte, ih hm']
      split <;> split <;> simp_all

/-- A read after a write: the value written, and every other byte as before. -/
theorem readByte_writeByte {m : Memory} (hm : Memory.wf m) (a b : Nat) (v : Byte) :
    Memory.readByte (Memory.writeByte m a v) b = if b = a then v else Memory.readByte m b := by
  unfold Memory.writeByte
  split
  · subst_vars; exact readByte_eraseByte hm a b
  · exact readByte_insertByte m a b v

theorem mem_eraseByte {m : Memory} {a : Nat} {c : Host.Cell} (h : c ∈ Memory.eraseByte m a) : c ∈ m := by
  induction m with
  | nil => simp [Memory.eraseByte] at h
  | cons d m ih =>
    simp only [Memory.eraseByte] at h
    split at h
    · simp [h]
    · rcases List.mem_cons.1 h with h | h
      · simp [h]
      · simp [ih h]

theorem mem_insertByte {m : Memory} {a : Nat} {v : Byte} {c : Host.Cell} (h : c ∈ Memory.insertByte m a v) :
    c = (a, v) ∨ c ∈ m := by
  induction m with
  | nil => left; simpa [Memory.insertByte] using h
  | cons d m ih =>
    simp only [Memory.insertByte] at h
    split at h
    · simpa using h
    · split at h
      · rcases List.mem_cons.1 h with h | h
        · exact .inl h
        · exact .inr (by simp [h])
      · rcases List.mem_cons.1 h with h | h
        · exact .inr (by simp [h])
        · rcases ih h with h | h
          · exact .inl h
          · exact .inr (by simp [h])

theorem mem_writeByte {m : Memory} {a : Nat} {v : Byte} {c : Host.Cell} (h : c ∈ Memory.writeByte m a v) :
    c = (a, v) ∨ c ∈ m := by
  unfold Memory.writeByte at h
  split at h
  · exact .inr (mem_eraseByte h)
  · exact mem_insertByte h

theorem eraseByte_wf {m : Memory} (hm : Memory.wf m) (a : Nat) : Memory.wf (Memory.eraseByte m a) := by
  refine ⟨?_, fun c hc => hm.2 c (mem_eraseByte hc)⟩
  have h := hm.1
  clear hm
  induction m with
  | nil => exact h
  | cons c m ih =>
    have hc := List.pairwise_cons.1 h
    simp only [Memory.eraseByte]
    split
    · exact hc.2
    · exact List.pairwise_cons.2 ⟨fun d hd => hc.1 d (mem_eraseByte hd), ih hc.2⟩

theorem insertByte_wf {m : Memory} (hm : Memory.wf m) (a : Nat) {v : Byte} (hv : v ≠ unlistedByte) :
    Memory.wf (Memory.insertByte m a v) := by
  constructor
  · have h := hm.1
    clear hm
    induction m with
    | nil => simp [Memory.insertByte]
    | cons c m ih =>
      have hc := List.pairwise_cons.1 h
      simp only [Memory.insertByte]
      split
      · rename_i hlt
        refine List.pairwise_cons.2 ⟨fun d hd => ?_, h⟩
        rcases List.mem_cons.1 hd with rfl | hd
        · exact hlt
        · exact Nat.lt_trans hlt (hc.1 d hd)
      · split
        · rename_i heq
          exact List.pairwise_cons.2 ⟨fun d hd => by simpa [heq] using hc.1 d hd, hc.2⟩
        · refine List.pairwise_cons.2 ⟨fun d hd => ?_, ih hc.2⟩
          rcases mem_insertByte hd with rfl | hd
          · show c.1 < a; omega
          · exact hc.1 d hd
  · intro c hc
    rcases mem_insertByte hc with rfl | hc
    · exact hv
    · exact hm.2 c hc

/-- A write keeps the canonical form. -/
theorem writeByte_wf {m : Memory} (hm : Memory.wf m) (a : Nat) (v : Byte) : Memory.wf (Memory.writeByte m a v) := by
  unfold Memory.writeByte
  split
  · exact eraseByte_wf hm a
  · exact insertByte_wf hm a ‹_›

theorem writeBytes_wf {m : Memory} (hm : Memory.wf m) (a : Nat) (bytes : List Byte) :
    Memory.wf (Memory.writeBytes m a bytes) := by
  induction bytes generalizing m a with
  | nil => exact hm
  | cons v bytes ih => exact ih (writeByte_wf hm a v) (a + 1)

theorem mem_writeBytes {m : Memory} {a : Nat} {bytes : List Byte} {c : Host.Cell}
    (h : c ∈ Memory.writeBytes m a bytes) : (a ≤ c.1 ∧ c.1 < a + bytes.length) ∨ c ∈ m := by
  induction bytes generalizing m a with
  | nil => exact .inr h
  | cons v bytes ih =>
    rcases ih h with h | h
    · left; simp only [List.length_cons]; omega
    · rcases mem_writeByte h with rfl | h
      · left; simp
      · exact .inr h

/-- A read after writes in a row: the list's byte inside the region, the old byte outside. -/
theorem readByte_writeBytes {m : Memory} (hm : Memory.wf m) (a b : Nat) (bytes : List Byte) :
    Memory.readByte (Memory.writeBytes m a bytes) b =
      if a ≤ b ∧ b < a + bytes.length then bytes.getD (b - a) unlistedByte else Memory.readByte m b := by
  induction bytes generalizing m a with
  | nil =>
    rw [if_neg (by simp only [List.length_nil]; omega)]
    rfl
  | cons v bytes ih =>
    simp only [Memory.writeBytes]
    rw [ih (writeByte_wf hm a v), readByte_writeByte hm]
    simp only [List.length_cons]
    by_cases hb : b = a
    · subst hb
      rw [if_neg (by omega), if_pos rfl, if_pos (by omega)]
      simp
    · by_cases hin : a + 1 ≤ b ∧ b < a + 1 + bytes.length
      · rw [if_pos hin, if_pos (by omega)]
        obtain ⟨k, hk⟩ : ∃ k, b - a = k + 1 := ⟨b - a - 1, by omega⟩
        have hk' : b - (a + 1) = k := by omega
        rw [hk, hk', List.getD_cons_succ]
      · rw [if_neg hin, if_neg hb, if_neg (by omega)]

theorem readByte_writeBytes_of_outside {m : Memory} (hm : Memory.wf m) {a b : Nat} {bytes : List Byte}
    (h : b < a ∨ a + bytes.length ≤ b) : Memory.readByte (Memory.writeBytes m a bytes) b = Memory.readByte m b := by
  rw [readByte_writeBytes hm, if_neg (by omega)]

/-- Two canonical memories that read the same everywhere are the same list. -/
theorem Memory.ext {m q : Memory} (hm : Memory.wf m) (hq : Memory.wf q)
    (h : ∀ a, Memory.readByte m a = Memory.readByte q a) : m = q := by
  induction m generalizing q with
  | nil =>
    cases q with
    | nil => rfl
    | cons d q =>
      have := h d.1
      simp only [Memory.readByte, if_pos] at this
      exact absurd this.symm (hq.2 d (by simp))
  | cons c m ih =>
    have hc := List.pairwise_cons.1 hm.1
    cases q with
    | nil =>
      have := h c.1
      simp only [Memory.readByte, if_pos] at this
      exact absurd this (hm.2 c (by simp))
    | cons d q =>
      have hd := List.pairwise_cons.1 hq.1
      obtain ⟨c, x⟩ := c
      obtain ⟨d, y⟩ := d
      have hm' : Memory.wf m := ⟨hc.2, fun e he => hm.2 e (by simp [he])⟩
      have hq' : Memory.wf q := ⟨hd.2, fun e he => hq.2 e (by simp [he])⟩
      have hx : x ≠ unlistedByte := hm.2 (c, x) (by simp)
      have hy : y ≠ unlistedByte := hq.2 (d, y) (by simp)
      have hcd : c = d := by
        rcases Nat.lt_trichotomy c d with hlt | heq | hlt
        · have h1 := h c
          simp only [Memory.readByte, if_pos] at h1
          rw [if_neg (by omega), readByte_of_lt_all (m := q) fun e he => Nat.lt_trans hlt (hd.1 e he)] at h1
          exact absurd h1 hx
        · exact heq
        · have h1 := h d
          simp only [Memory.readByte, if_pos] at h1
          rw [if_neg (by omega), readByte_of_lt_all (m := m) fun e he => Nat.lt_trans hlt (hc.1 e he)] at h1
          exact absurd h1.symm hy
      subst hcd
      have hxy : x = y := by simpa [Memory.readByte] using h c
      subst hxy
      congr 1
      refine ih hm' hq' fun a => ?_
      by_cases ha : a = c
      · subst ha
        rw [readByte_of_lt_all (m := m) fun e he => hc.1 e he, readByte_of_lt_all (m := q) fun e he => hd.1 e he]
      · simpa [Memory.readByte, ha] using h a

@[simp] theorem length_readBytes (m : Memory) (a k : Nat) : (Memory.readBytes m a k).length = k := by
  induction k generalizing a with
  | zero => rfl
  | succ k ih => simp [Memory.readBytes, ih]

theorem getElem_readBytes (m : Memory) (a k i : Nat) (h : i < (Memory.readBytes m a k).length) :
    (Memory.readBytes m a k)[i] = Memory.readByte m (a + i) := by
  induction k generalizing a i with
  | zero => simp at h
  | succ k ih =>
    cases i with
    | zero => simp [Memory.readBytes]
    | succ i =>
      simp only [Memory.readBytes, List.getElem_cons_succ]
      rw [ih]
      congr 1
      omega

/-- Reading fewer bytes is taking a prefix. -/
theorem readBytes_min (m : Memory) (a j k : Nat) :
    Memory.readBytes m a (min j k) = (Memory.readBytes m a k).take j := by
  refine List.ext_getElem (by simp) fun i h1 h2 => ?_
  rw [getElem_readBytes, List.getElem_take, getElem_readBytes]

/-- Reading from a later offset is dropping a prefix. -/
theorem readBytes_drop (m : Memory) (a j k : Nat) :
    (Memory.readBytes m a k).drop j = Memory.readBytes m (a + j) (k - j) := by
  refine List.ext_getElem (by simp) fun i h1 h2 => ?_
  rw [List.getElem_drop, getElem_readBytes, getElem_readBytes]
  congr 1
  omega

theorem readBytes_congr {m q : Memory} {a k : Nat}
    (h : ∀ b, a ≤ b → b < a + k → Memory.readByte m b = Memory.readByte q b) :
    Memory.readBytes m a k = Memory.readBytes q a k := by
  refine List.ext_getElem (by simp) fun i h1 h2 => ?_
  rw [getElem_readBytes, getElem_readBytes]
  rw [length_readBytes] at h1
  exact h _ (by omega) (by omega)

theorem writeBytes_append (m : Memory) (a : Nat) (xs ys : List Byte) :
    Memory.writeBytes m a (xs ++ ys) = Memory.writeBytes (Memory.writeBytes m a xs) (a + xs.length) ys := by
  induction xs generalizing m a with
  | nil => rfl
  | cons x xs ih =>
    simp only [List.cons_append, Memory.writeBytes, ih, List.length_cons]
    congr 1
    omega

/-- Memory after reset is in its canonical form. -/
theorem reset_mem_wf : Memory.wf State.reset.mem := by decide

end Sys2Proof.Machine
end

