-- ==== Sys2Proof/Laws/State.lean ====
section
/-! SUPPORT. One lemma per field per named update of State, so that no later proof unfolds a record update. -/

namespace Sys2Proof.Machine

@[simp] theorem State.setMem_cfg (s : State) (m : Memory) : (s.setMem m).cfg = s.cfg := rfl
@[simp] theorem State.setMem_ctrlStrict (s : State) (m : Memory) : (s.setMem m).ctrlStrict = s.ctrlStrict := rfl
@[simp] theorem State.setMem_status (s : State) (m : Memory) : (s.setMem m).status = s.status := rfl
@[simp] theorem State.setMem_srcAddr (s : State) (m : Memory) : (s.setMem m).srcAddr = s.srcAddr := rfl
@[simp] theorem State.setMem_srcLen (s : State) (m : Memory) : (s.setMem m).srcLen = s.srcLen := rfl
@[simp] theorem State.setMem_dstAddr (s : State) (m : Memory) : (s.setMem m).dstAddr = s.dstAddr := rfl
@[simp] theorem State.setMem_dstCap (s : State) (m : Memory) : (s.setMem m).dstCap = s.dstCap := rfl
@[simp] theorem State.setMem_result (s : State) (m : Memory) : (s.setMem m).result = s.result := rfl
@[simp] theorem State.setMem_phase (s : State) (m : Memory) : (s.setMem m).phase = s.phase := rfl
@[simp] theorem State.setMem_op (s : State) (m : Memory) : (s.setMem m).op = s.op := rfl
@[simp] theorem State.setMem_latchAddr (s : State) (m : Memory) : (s.setMem m).latchAddr = s.latchAddr := rfl
@[simp] theorem State.setMem_latchLen (s : State) (m : Memory) : (s.setMem m).latchLen = s.latchLen := rfl
@[simp] theorem State.setMem_latchDst (s : State) (m : Memory) : (s.setMem m).latchDst = s.latchDst := rfl
@[simp] theorem State.setMem_latchCap (s : State) (m : Memory) : (s.setMem m).latchCap = s.latchCap := rfl
@[simp] theorem State.setMem_latchStrict (s : State) (m : Memory) : (s.setMem m).latchStrict = s.latchStrict := rfl
@[simp] theorem State.setMem_rd (s : State) (m : Memory) : (s.setMem m).rd = s.rd := rfl
@[simp] theorem State.setMem_wr (s : State) (m : Memory) : (s.setMem m).wr = s.wr := rfl
@[simp] theorem State.setMem_mem (s : State) (m : Memory) : (s.setMem m).mem = m := rfl
@[simp] theorem State.setMem_schedule (s : State) (m : Memory) : (s.setMem m).schedule = s.schedule := rfl
@[simp] theorem State.setMem_observed (s : State) (m : Memory) : (s.setMem m).observed = s.observed := rfl
@[simp] theorem State.setMem_draws (s : State) (m : Memory) : (s.setMem m).draws = s.draws := rfl

@[simp] theorem State.setCursors_cfg (s : State) (r w : Word) : (s.setCursors r w).cfg = s.cfg := rfl
@[simp] theorem State.setCursors_ctrlStrict (s : State) (r w : Word) : (s.setCursors r w).ctrlStrict = s.ctrlStrict := rfl
@[simp] theorem State.setCursors_status (s : State) (r w : Word) : (s.setCursors r w).status = s.status := rfl
@[simp] theorem State.setCursors_srcAddr (s : State) (r w : Word) : (s.setCursors r w).srcAddr = s.srcAddr := rfl
@[simp] theorem State.setCursors_srcLen (s : State) (r w : Word) : (s.setCursors r w).srcLen = s.srcLen := rfl
@[simp] theorem State.setCursors_dstAddr (s : State) (r w : Word) : (s.setCursors r w).dstAddr = s.dstAddr := rfl
@[simp] theorem State.setCursors_dstCap (s : State) (r w : Word) : (s.setCursors r w).dstCap = s.dstCap := rfl
@[simp] theorem State.setCursors_result (s : State) (r w : Word) : (s.setCursors r w).result = s.result := rfl
@[simp] theorem State.setCursors_phase (s : State) (r w : Word) : (s.setCursors r w).phase = s.phase := rfl
@[simp] theorem State.setCursors_op (s : State) (r w : Word) : (s.setCursors r w).op = s.op := rfl
@[simp] theorem State.setCursors_latchAddr (s : State) (r w : Word) : (s.setCursors r w).latchAddr = s.latchAddr := rfl
@[simp] theorem State.setCursors_latchLen (s : State) (r w : Word) : (s.setCursors r w).latchLen = s.latchLen := rfl
@[simp] theorem State.setCursors_latchDst (s : State) (r w : Word) : (s.setCursors r w).latchDst = s.latchDst := rfl
@[simp] theorem State.setCursors_latchCap (s : State) (r w : Word) : (s.setCursors r w).latchCap = s.latchCap := rfl
@[simp] theorem State.setCursors_latchStrict (s : State) (r w : Word) : (s.setCursors r w).latchStrict = s.latchStrict := rfl
@[simp] theorem State.setCursors_rd (s : State) (r w : Word) : (s.setCursors r w).rd = r := rfl
@[simp] theorem State.setCursors_wr (s : State) (r w : Word) : (s.setCursors r w).wr = w := rfl
@[simp] theorem State.setCursors_mem (s : State) (r w : Word) : (s.setCursors r w).mem = s.mem := rfl
@[simp] theorem State.setCursors_schedule (s : State) (r w : Word) : (s.setCursors r w).schedule = s.schedule := rfl
@[simp] theorem State.setCursors_observed (s : State) (r w : Word) : (s.setCursors r w).observed = s.observed := rfl
@[simp] theorem State.setCursors_draws (s : State) (r w : Word) : (s.setCursors r w).draws = s.draws := rfl

@[simp] theorem State.setSchedule_cfg (s : State) (l : List Turn) : (s.setSchedule l).cfg = s.cfg := rfl
@[simp] theorem State.setSchedule_ctrlStrict (s : State) (l : List Turn) : (s.setSchedule l).ctrlStrict = s.ctrlStrict := rfl
@[simp] theorem State.setSchedule_status (s : State) (l : List Turn) : (s.setSchedule l).status = s.status := rfl
@[simp] theorem State.setSchedule_srcAddr (s : State) (l : List Turn) : (s.setSchedule l).srcAddr = s.srcAddr := rfl
@[simp] theorem State.setSchedule_srcLen (s : State) (l : List Turn) : (s.setSchedule l).srcLen = s.srcLen := rfl
@[simp] theorem State.setSchedule_dstAddr (s : State) (l : List Turn) : (s.setSchedule l).dstAddr = s.dstAddr := rfl
@[simp] theorem State.setSchedule_dstCap (s : State) (l : List Turn) : (s.setSchedule l).dstCap = s.dstCap := rfl
@[simp] theorem State.setSchedule_result (s : State) (l : List Turn) : (s.setSchedule l).result = s.result := rfl
@[simp] theorem State.setSchedule_phase (s : State) (l : List Turn) : (s.setSchedule l).phase = s.phase := rfl
@[simp] theorem State.setSchedule_op (s : State) (l : List Turn) : (s.setSchedule l).op = s.op := rfl
@[simp] theorem State.setSchedule_latchAddr (s : State) (l : List Turn) : (s.setSchedule l).latchAddr = s.latchAddr := rfl
@[simp] theorem State.setSchedule_latchLen (s : State) (l : List Turn) : (s.setSchedule l).latchLen = s.latchLen := rfl
@[simp] theorem State.setSchedule_latchDst (s : State) (l : List Turn) : (s.setSchedule l).latchDst = s.latchDst := rfl
@[simp] theorem State.setSchedule_latchCap (s : State) (l : List Turn) : (s.setSchedule l).latchCap = s.latchCap := rfl
@[simp] theorem State.setSchedule_latchStrict (s : State) (l : List Turn) : (s.setSchedule l).latchStrict = s.latchStrict := rfl
@[simp] theorem State.setSchedule_rd (s : State) (l : List Turn) : (s.setSchedule l).rd = s.rd := rfl
@[simp] theorem State.setSchedule_wr (s : State) (l : List Turn) : (s.setSchedule l).wr = s.wr := rfl
@[simp] theorem State.setSchedule_mem (s : State) (l : List Turn) : (s.setSchedule l).mem = s.mem := rfl
@[simp] theorem State.setSchedule_schedule (s : State) (l : List Turn) : (s.setSchedule l).schedule = l := rfl
@[simp] theorem State.setSchedule_observed (s : State) (l : List Turn) : (s.setSchedule l).observed = s.observed := rfl
@[simp] theorem State.setSchedule_draws (s : State) (l : List Turn) : (s.setSchedule l).draws = s.draws := rfl

@[simp] theorem State.observe_cfg (s : State) (o : Observation) : (s.observe o).cfg = s.cfg := rfl
@[simp] theorem State.observe_ctrlStrict (s : State) (o : Observation) : (s.observe o).ctrlStrict = s.ctrlStrict := rfl
@[simp] theorem State.observe_status (s : State) (o : Observation) : (s.observe o).status = s.status := rfl
@[simp] theorem State.observe_srcAddr (s : State) (o : Observation) : (s.observe o).srcAddr = s.srcAddr := rfl
@[simp] theorem State.observe_srcLen (s : State) (o : Observation) : (s.observe o).srcLen = s.srcLen := rfl
@[simp] theorem State.observe_dstAddr (s : State) (o : Observation) : (s.observe o).dstAddr = s.dstAddr := rfl
@[simp] theorem State.observe_dstCap (s : State) (o : Observation) : (s.observe o).dstCap = s.dstCap := rfl
@[simp] theorem State.observe_result (s : State) (o : Observation) : (s.observe o).result = s.result := rfl
@[simp] theorem State.observe_phase (s : State) (o : Observation) : (s.observe o).phase = s.phase := rfl
@[simp] theorem State.observe_op (s : State) (o : Observation) : (s.observe o).op = s.op := rfl
@[simp] theorem State.observe_latchAddr (s : State) (o : Observation) : (s.observe o).latchAddr = s.latchAddr := rfl
@[simp] theorem State.observe_latchLen (s : State) (o : Observation) : (s.observe o).latchLen = s.latchLen := rfl
@[simp] theorem State.observe_latchDst (s : State) (o : Observation) : (s.observe o).latchDst = s.latchDst := rfl
@[simp] theorem State.observe_latchCap (s : State) (o : Observation) : (s.observe o).latchCap = s.latchCap := rfl
@[simp] theorem State.observe_latchStrict (s : State) (o : Observation) : (s.observe o).latchStrict = s.latchStrict := rfl
@[simp] theorem State.observe_rd (s : State) (o : Observation) : (s.observe o).rd = s.rd := rfl
@[simp] theorem State.observe_wr (s : State) (o : Observation) : (s.observe o).wr = s.wr := rfl
@[simp] theorem State.observe_mem (s : State) (o : Observation) : (s.observe o).mem = s.mem := rfl
@[simp] theorem State.observe_schedule (s : State) (o : Observation) : (s.observe o).schedule = s.schedule := rfl
@[simp] theorem State.observe_observed (s : State) (o : Observation) : (s.observe o).observed = some o := rfl
@[simp] theorem State.observe_draws (s : State) (o : Observation) : (s.observe o).draws = s.draws := rfl

@[simp] theorem State.setCtrlStrict_cfg (s : State) (b : Bool) : (s.setCtrlStrict b).cfg = s.cfg := rfl
@[simp] theorem State.setCtrlStrict_ctrlStrict (s : State) (b : Bool) : (s.setCtrlStrict b).ctrlStrict = b := rfl
@[simp] theorem State.setCtrlStrict_status (s : State) (b : Bool) : (s.setCtrlStrict b).status = s.status := rfl
@[simp] theorem State.setCtrlStrict_srcAddr (s : State) (b : Bool) : (s.setCtrlStrict b).srcAddr = s.srcAddr := rfl
@[simp] theorem State.setCtrlStrict_srcLen (s : State) (b : Bool) : (s.setCtrlStrict b).srcLen = s.srcLen := rfl
@[simp] theorem State.setCtrlStrict_dstAddr (s : State) (b : Bool) : (s.setCtrlStrict b).dstAddr = s.dstAddr := rfl
@[simp] theorem State.setCtrlStrict_dstCap (s : State) (b : Bool) : (s.setCtrlStrict b).dstCap = s.dstCap := rfl
@[simp] theorem State.setCtrlStrict_result (s : State) (b : Bool) : (s.setCtrlStrict b).result = s.result := rfl
@[simp] theorem State.setCtrlStrict_phase (s : State) (b : Bool) : (s.setCtrlStrict b).phase = s.phase := rfl
@[simp] theorem State.setCtrlStrict_op (s : State) (b : Bool) : (s.setCtrlStrict b).op = s.op := rfl
@[simp] theorem State.setCtrlStrict_latchAddr (s : State) (b : Bool) : (s.setCtrlStrict b).latchAddr = s.latchAddr := rfl
@[simp] theorem State.setCtrlStrict_latchLen (s : State) (b : Bool) : (s.setCtrlStrict b).latchLen = s.latchLen := rfl
@[simp] theorem State.setCtrlStrict_latchDst (s : State) (b : Bool) : (s.setCtrlStrict b).latchDst = s.latchDst := rfl
@[simp] theorem State.setCtrlStrict_latchCap (s : State) (b : Bool) : (s.setCtrlStrict b).latchCap = s.latchCap := rfl
@[simp] theorem State.setCtrlStrict_latchStrict (s : State) (b : Bool) : (s.setCtrlStrict b).latchStrict = s.latchStrict := rfl
@[simp] theorem State.setCtrlStrict_rd (s : State) (b : Bool) : (s.setCtrlStrict b).rd = s.rd := rfl
@[simp] theorem State.setCtrlStrict_wr (s : State) (b : Bool) : (s.setCtrlStrict b).wr = s.wr := rfl
@[simp] theorem State.setCtrlStrict_mem (s : State) (b : Bool) : (s.setCtrlStrict b).mem = s.mem := rfl
@[simp] theorem State.setCtrlStrict_schedule (s : State) (b : Bool) : (s.setCtrlStrict b).schedule = s.schedule := rfl
@[simp] theorem State.setCtrlStrict_observed (s : State) (b : Bool) : (s.setCtrlStrict b).observed = s.observed := rfl
@[simp] theorem State.setCtrlStrict_draws (s : State) (b : Bool) : (s.setCtrlStrict b).draws = s.draws := rfl

@[simp] theorem State.setSrcAddr_cfg (s : State) (w : Word) : (s.setSrcAddr w).cfg = s.cfg := rfl
@[simp] theorem State.setSrcAddr_ctrlStrict (s : State) (w : Word) : (s.setSrcAddr w).ctrlStrict = s.ctrlStrict := rfl
@[simp] theorem State.setSrcAddr_status (s : State) (w : Word) : (s.setSrcAddr w).status = s.status := rfl
@[simp] theorem State.setSrcAddr_srcAddr (s : State) (w : Word) : (s.setSrcAddr w).srcAddr = w := rfl
@[simp] theorem State.setSrcAddr_srcLen (s : State) (w : Word) : (s.setSrcAddr w).srcLen = s.srcLen := rfl
@[simp] theorem State.setSrcAddr_dstAddr (s : State) (w : Word) : (s.setSrcAddr w).dstAddr = s.dstAddr := rfl
@[simp] theorem State.setSrcAddr_dstCap (s : State) (w : Word) : (s.setSrcAddr w).dstCap = s.dstCap := rfl
@[simp] theorem State.setSrcAddr_result (s : State) (w : Word) : (s.setSrcAddr w).result = s.result := rfl
@[simp] theorem State.setSrcAddr_phase (s : State) (w : Word) : (s.setSrcAddr w).phase = s.phase := rfl
@[simp] theorem State.setSrcAddr_op (s : State) (w : Word) : (s.setSrcAddr w).op = s.op := rfl
@[simp] theorem State.setSrcAddr_latchAddr (s : State) (w : Word) : (s.setSrcAddr w).latchAddr = s.latchAddr := rfl
@[simp] theorem State.setSrcAddr_latchLen (s : State) (w : Word) : (s.setSrcAddr w).latchLen = s.latchLen := rfl
@[simp] theorem State.setSrcAddr_latchDst (s : State) (w : Word) : (s.setSrcAddr w).latchDst = s.latchDst := rfl
@[simp] theorem State.setSrcAddr_latchCap (s : State) (w : Word) : (s.setSrcAddr w).latchCap = s.latchCap := rfl
@[simp] theorem State.setSrcAddr_latchStrict (s : State) (w : Word) : (s.setSrcAddr w).latchStrict = s.latchStrict := rfl
@[simp] theorem State.setSrcAddr_rd (s : State) (w : Word) : (s.setSrcAddr w).rd = s.rd := rfl
@[simp] theorem State.setSrcAddr_wr (s : State) (w : Word) : (s.setSrcAddr w).wr = s.wr := rfl
@[simp] theorem State.setSrcAddr_mem (s : State) (w : Word) : (s.setSrcAddr w).mem = s.mem := rfl
@[simp] theorem State.setSrcAddr_schedule (s : State) (w : Word) : (s.setSrcAddr w).schedule = s.schedule := rfl
@[simp] theorem State.setSrcAddr_observed (s : State) (w : Word) : (s.setSrcAddr w).observed = s.observed := rfl
@[simp] theorem State.setSrcAddr_draws (s : State) (w : Word) : (s.setSrcAddr w).draws = s.draws := rfl

@[simp] theorem State.setSrcLen_cfg (s : State) (w : Word) : (s.setSrcLen w).cfg = s.cfg := rfl
@[simp] theorem State.setSrcLen_ctrlStrict (s : State) (w : Word) : (s.setSrcLen w).ctrlStrict = s.ctrlStrict := rfl
@[simp] theorem State.setSrcLen_status (s : State) (w : Word) : (s.setSrcLen w).status = s.status := rfl
@[simp] theorem State.setSrcLen_srcAddr (s : State) (w : Word) : (s.setSrcLen w).srcAddr = s.srcAddr := rfl
@[simp] theorem State.setSrcLen_srcLen (s : State) (w : Word) : (s.setSrcLen w).srcLen = w := rfl
@[simp] theorem State.setSrcLen_dstAddr (s : State) (w : Word) : (s.setSrcLen w).dstAddr = s.dstAddr := rfl
@[simp] theorem State.setSrcLen_dstCap (s : State) (w : Word) : (s.setSrcLen w).dstCap = s.dstCap := rfl
@[simp] theorem State.setSrcLen_result (s : State) (w : Word) : (s.setSrcLen w).result = s.result := rfl
@[simp] theorem State.setSrcLen_phase (s : State) (w : Word) : (s.setSrcLen w).phase = s.phase := rfl
@[simp] theorem State.setSrcLen_op (s : State) (w : Word) : (s.setSrcLen w).op = s.op := rfl
@[simp] theorem State.setSrcLen_latchAddr (s : State) (w : Word) : (s.setSrcLen w).latchAddr = s.latchAddr := rfl
@[simp] theorem State.setSrcLen_latchLen (s : State) (w : Word) : (s.setSrcLen w).latchLen = s.latchLen := rfl
@[simp] theorem State.setSrcLen_latchDst (s : State) (w : Word) : (s.setSrcLen w).latchDst = s.latchDst := rfl
@[simp] theorem State.setSrcLen_latchCap (s : State) (w : Word) : (s.setSrcLen w).latchCap = s.latchCap := rfl
@[simp] theorem State.setSrcLen_latchStrict (s : State) (w : Word) : (s.setSrcLen w).latchStrict = s.latchStrict := rfl
@[simp] theorem State.setSrcLen_rd (s : State) (w : Word) : (s.setSrcLen w).rd = s.rd := rfl
@[simp] theorem State.setSrcLen_wr (s : State) (w : Word) : (s.setSrcLen w).wr = s.wr := rfl
@[simp] theorem State.setSrcLen_mem (s : State) (w : Word) : (s.setSrcLen w).mem = s.mem := rfl
@[simp] theorem State.setSrcLen_schedule (s : State) (w : Word) : (s.setSrcLen w).schedule = s.schedule := rfl
@[simp] theorem State.setSrcLen_observed (s : State) (w : Word) : (s.setSrcLen w).observed = s.observed := rfl
@[simp] theorem State.setSrcLen_draws (s : State) (w : Word) : (s.setSrcLen w).draws = s.draws := rfl

@[simp] theorem State.setDstAddr_cfg (s : State) (w : Word) : (s.setDstAddr w).cfg = s.cfg := rfl
@[simp] theorem State.setDstAddr_ctrlStrict (s : State) (w : Word) : (s.setDstAddr w).ctrlStrict = s.ctrlStrict := rfl
@[simp] theorem State.setDstAddr_status (s : State) (w : Word) : (s.setDstAddr w).status = s.status := rfl
@[simp] theorem State.setDstAddr_srcAddr (s : State) (w : Word) : (s.setDstAddr w).srcAddr = s.srcAddr := rfl
@[simp] theorem State.setDstAddr_srcLen (s : State) (w : Word) : (s.setDstAddr w).srcLen = s.srcLen := rfl
@[simp] theorem State.setDstAddr_dstAddr (s : State) (w : Word) : (s.setDstAddr w).dstAddr = w := rfl
@[simp] theorem State.setDstAddr_dstCap (s : State) (w : Word) : (s.setDstAddr w).dstCap = s.dstCap := rfl
@[simp] theorem State.setDstAddr_result (s : State) (w : Word) : (s.setDstAddr w).result = s.result := rfl
@[simp] theorem State.setDstAddr_phase (s : State) (w : Word) : (s.setDstAddr w).phase = s.phase := rfl
@[simp] theorem State.setDstAddr_op (s : State) (w : Word) : (s.setDstAddr w).op = s.op := rfl
@[simp] theorem State.setDstAddr_latchAddr (s : State) (w : Word) : (s.setDstAddr w).latchAddr = s.latchAddr := rfl
@[simp] theorem State.setDstAddr_latchLen (s : State) (w : Word) : (s.setDstAddr w).latchLen = s.latchLen := rfl
@[simp] theorem State.setDstAddr_latchDst (s : State) (w : Word) : (s.setDstAddr w).latchDst = s.latchDst := rfl
@[simp] theorem State.setDstAddr_latchCap (s : State) (w : Word) : (s.setDstAddr w).latchCap = s.latchCap := rfl
@[simp] theorem State.setDstAddr_latchStrict (s : State) (w : Word) : (s.setDstAddr w).latchStrict = s.latchStrict := rfl
@[simp] theorem State.setDstAddr_rd (s : State) (w : Word) : (s.setDstAddr w).rd = s.rd := rfl
@[simp] theorem State.setDstAddr_wr (s : State) (w : Word) : (s.setDstAddr w).wr = s.wr := rfl
@[simp] theorem State.setDstAddr_mem (s : State) (w : Word) : (s.setDstAddr w).mem = s.mem := rfl
@[simp] theorem State.setDstAddr_schedule (s : State) (w : Word) : (s.setDstAddr w).schedule = s.schedule := rfl
@[simp] theorem State.setDstAddr_observed (s : State) (w : Word) : (s.setDstAddr w).observed = s.observed := rfl
@[simp] theorem State.setDstAddr_draws (s : State) (w : Word) : (s.setDstAddr w).draws = s.draws := rfl

@[simp] theorem State.setDstCap_cfg (s : State) (w : Word) : (s.setDstCap w).cfg = s.cfg := rfl
@[simp] theorem State.setDstCap_ctrlStrict (s : State) (w : Word) : (s.setDstCap w).ctrlStrict = s.ctrlStrict := rfl
@[simp] theorem State.setDstCap_status (s : State) (w : Word) : (s.setDstCap w).status = s.status := rfl
@[simp] theorem State.setDstCap_srcAddr (s : State) (w : Word) : (s.setDstCap w).srcAddr = s.srcAddr := rfl
@[simp] theorem State.setDstCap_srcLen (s : State) (w : Word) : (s.setDstCap w).srcLen = s.srcLen := rfl
@[simp] theorem State.setDstCap_dstAddr (s : State) (w : Word) : (s.setDstCap w).dstAddr = s.dstAddr := rfl
@[simp] theorem State.setDstCap_dstCap (s : State) (w : Word) : (s.setDstCap w).dstCap = w := rfl
@[simp] theorem State.setDstCap_result (s : State) (w : Word) : (s.setDstCap w).result = s.result := rfl
@[simp] theorem State.setDstCap_phase (s : State) (w : Word) : (s.setDstCap w).phase = s.phase := rfl
@[simp] theorem State.setDstCap_op (s : State) (w : Word) : (s.setDstCap w).op = s.op := rfl
@[simp] theorem State.setDstCap_latchAddr (s : State) (w : Word) : (s.setDstCap w).latchAddr = s.latchAddr := rfl
@[simp] theorem State.setDstCap_latchLen (s : State) (w : Word) : (s.setDstCap w).latchLen = s.latchLen := rfl
@[simp] theorem State.setDstCap_latchDst (s : State) (w : Word) : (s.setDstCap w).latchDst = s.latchDst := rfl
@[simp] theorem State.setDstCap_latchCap (s : State) (w : Word) : (s.setDstCap w).latchCap = s.latchCap := rfl
@[simp] theorem State.setDstCap_latchStrict (s : State) (w : Word) : (s.setDstCap w).latchStrict = s.latchStrict := rfl
@[simp] theorem State.setDstCap_rd (s : State) (w : Word) : (s.setDstCap w).rd = s.rd := rfl
@[simp] theorem State.setDstCap_wr (s : State) (w : Word) : (s.setDstCap w).wr = s.wr := rfl
@[simp] theorem State.setDstCap_mem (s : State) (w : Word) : (s.setDstCap w).mem = s.mem := rfl
@[simp] theorem State.setDstCap_schedule (s : State) (w : Word) : (s.setDstCap w).schedule = s.schedule := rfl
@[simp] theorem State.setDstCap_observed (s : State) (w : Word) : (s.setDstCap w).observed = s.observed := rfl
@[simp] theorem State.setDstCap_draws (s : State) (w : Word) : (s.setDstCap w).draws = s.draws := rfl

@[simp] theorem State.accept_cfg (s : State) (o : Op) : (s.accept o).cfg = s.cfg := rfl
@[simp] theorem State.accept_ctrlStrict (s : State) (o : Op) : (s.accept o).ctrlStrict = s.ctrlStrict := rfl
@[simp] theorem State.accept_status (s : State) (o : Op) : (s.accept o).status = Status.accepted := rfl
@[simp] theorem State.accept_srcAddr (s : State) (o : Op) : (s.accept o).srcAddr = s.srcAddr := rfl
@[simp] theorem State.accept_srcLen (s : State) (o : Op) : (s.accept o).srcLen = s.srcLen := rfl
@[simp] theorem State.accept_dstAddr (s : State) (o : Op) : (s.accept o).dstAddr = s.dstAddr := rfl
@[simp] theorem State.accept_dstCap (s : State) (o : Op) : (s.accept o).dstCap = s.dstCap := rfl
@[simp] theorem State.accept_result (s : State) (o : Op) : (s.accept o).result = s.result := rfl
@[simp] theorem State.accept_phase (s : State) (o : Op) : (s.accept o).phase = .active := rfl
@[simp] theorem State.accept_op (s : State) (o : Op) : (s.accept o).op = o := rfl
@[simp] theorem State.accept_latchAddr (s : State) (o : Op) : (s.accept o).latchAddr = s.srcAddr := rfl
@[simp] theorem State.accept_latchLen (s : State) (o : Op) : (s.accept o).latchLen = s.srcLen := rfl
@[simp] theorem State.accept_latchDst (s : State) (o : Op) : (s.accept o).latchDst = s.dstAddr := rfl
@[simp] theorem State.accept_latchCap (s : State) (o : Op) : (s.accept o).latchCap = s.dstCap := rfl
@[simp] theorem State.accept_latchStrict (s : State) (o : Op) : (s.accept o).latchStrict = s.ctrlStrict := rfl
@[simp] theorem State.accept_rd (s : State) (o : Op) : (s.accept o).rd = 0 := rfl
@[simp] theorem State.accept_wr (s : State) (o : Op) : (s.accept o).wr = 0 := rfl
@[simp] theorem State.accept_mem (s : State) (o : Op) : (s.accept o).mem = s.mem := rfl
@[simp] theorem State.accept_schedule (s : State) (o : Op) : (s.accept o).schedule = s.schedule := rfl
@[simp] theorem State.accept_observed (s : State) (o : Op) : (s.accept o).observed = s.observed := rfl
@[simp] theorem State.accept_draws (s : State) (o : Op) : (s.accept o).draws = s.draws := rfl

@[simp] theorem State.finish_cfg (s : State) (r : Word) (e : ErrCode) : (s.finish r e).cfg = s.cfg := rfl
@[simp] theorem State.finish_ctrlStrict (s : State) (r : Word) (e : ErrCode) : (s.finish r e).ctrlStrict = s.ctrlStrict := rfl
@[simp] theorem State.finish_status (s : State) (r : Word) (e : ErrCode) : (s.finish r e).status = Status.completed e := rfl
@[simp] theorem State.finish_srcAddr (s : State) (r : Word) (e : ErrCode) : (s.finish r e).srcAddr = s.srcAddr := rfl
@[simp] theorem State.finish_srcLen (s : State) (r : Word) (e : ErrCode) : (s.finish r e).srcLen = s.srcLen := rfl
@[simp] theorem State.finish_dstAddr (s : State) (r : Word) (e : ErrCode) : (s.finish r e).dstAddr = s.dstAddr := rfl
@[simp] theorem State.finish_dstCap (s : State) (r : Word) (e : ErrCode) : (s.finish r e).dstCap = s.dstCap := rfl
@[simp] theorem State.finish_result (s : State) (r : Word) (e : ErrCode) : (s.finish r e).result = r := rfl
@[simp] theorem State.finish_phase (s : State) (r : Word) (e : ErrCode) : (s.finish r e).phase = .idle := rfl
@[simp] theorem State.finish_op (s : State) (r : Word) (e : ErrCode) : (s.finish r e).op = s.op := rfl
@[simp] theorem State.finish_latchAddr (s : State) (r : Word) (e : ErrCode) : (s.finish r e).latchAddr = s.latchAddr := rfl
@[simp] theorem State.finish_latchLen (s : State) (r : Word) (e : ErrCode) : (s.finish r e).latchLen = s.latchLen := rfl
@[simp] theorem State.finish_latchDst (s : State) (r : Word) (e : ErrCode) : (s.finish r e).latchDst = s.latchDst := rfl
@[simp] theorem State.finish_latchCap (s : State) (r : Word) (e : ErrCode) : (s.finish r e).latchCap = s.latchCap := rfl
@[simp] theorem State.finish_latchStrict (s : State) (r : Word) (e : ErrCode) : (s.finish r e).latchStrict = s.latchStrict := rfl
@[simp] theorem State.finish_rd (s : State) (r : Word) (e : ErrCode) : (s.finish r e).rd = s.rd := rfl
@[simp] theorem State.finish_wr (s : State) (r : Word) (e : ErrCode) : (s.finish r e).wr = s.wr := rfl
@[simp] theorem State.finish_mem (s : State) (r : Word) (e : ErrCode) : (s.finish r e).mem = s.mem := rfl
@[simp] theorem State.finish_schedule (s : State) (r : Word) (e : ErrCode) : (s.finish r e).schedule = s.schedule := rfl
@[simp] theorem State.finish_observed (s : State) (r : Word) (e : ErrCode) : (s.finish r e).observed = s.observed := rfl
@[simp] theorem State.finish_draws (s : State) (r : Word) (e : ErrCode) : (s.finish r e).draws = s.draws := rfl

@[simp] theorem State.complete_cfg (s : State) (r : Word) : (s.complete r).cfg = s.cfg := rfl
@[simp] theorem State.complete_ctrlStrict (s : State) (r : Word) : (s.complete r).ctrlStrict = s.ctrlStrict := rfl
@[simp] theorem State.complete_status (s : State) (r : Word) : (s.complete r).status = Status.completed .noError := rfl
@[simp] theorem State.complete_srcAddr (s : State) (r : Word) : (s.complete r).srcAddr = s.srcAddr := rfl
@[simp] theorem State.complete_srcLen (s : State) (r : Word) : (s.complete r).srcLen = s.srcLen := rfl
@[simp] theorem State.complete_dstAddr (s : State) (r : Word) : (s.complete r).dstAddr = s.dstAddr := rfl
@[simp] theorem State.complete_dstCap (s : State) (r : Word) : (s.complete r).dstCap = s.dstCap := rfl
@[simp] theorem State.complete_result (s : State) (r : Word) : (s.complete r).result = r := rfl
@[simp] theorem State.complete_phase (s : State) (r : Word) : (s.complete r).phase = .idle := rfl
@[simp] theorem State.complete_op (s : State) (r : Word) : (s.complete r).op = s.op := rfl
@[simp] theorem State.complete_latchAddr (s : State) (r : Word) : (s.complete r).latchAddr = s.latchAddr := rfl
@[simp] theorem State.complete_latchLen (s : State) (r : Word) : (s.complete r).latchLen = s.latchLen := rfl
@[simp] theorem State.complete_latchDst (s : State) (r : Word) : (s.complete r).latchDst = s.latchDst := rfl
@[simp] theorem State.complete_latchCap (s : State) (r : Word) : (s.complete r).latchCap = s.latchCap := rfl
@[simp] theorem State.complete_latchStrict (s : State) (r : Word) : (s.complete r).latchStrict = s.latchStrict := rfl
@[simp] theorem State.complete_rd (s : State) (r : Word) : (s.complete r).rd = s.rd := rfl
@[simp] theorem State.complete_wr (s : State) (r : Word) : (s.complete r).wr = s.wr := rfl
@[simp] theorem State.complete_mem (s : State) (r : Word) : (s.complete r).mem = s.mem := rfl
@[simp] theorem State.complete_schedule (s : State) (r : Word) : (s.complete r).schedule = s.schedule := rfl
@[simp] theorem State.complete_observed (s : State) (r : Word) : (s.complete r).observed = s.observed := rfl
@[simp] theorem State.complete_draws (s : State) (r : Word) : (s.complete r).draws = s.draws := rfl

@[simp] theorem State.fail_cfg (s : State) (e : ErrCode) : (s.fail e).cfg = s.cfg := rfl
@[simp] theorem State.fail_ctrlStrict (s : State) (e : ErrCode) : (s.fail e).ctrlStrict = s.ctrlStrict := rfl
@[simp] theorem State.fail_status (s : State) (e : ErrCode) : (s.fail e).status = Status.completed e := rfl
@[simp] theorem State.fail_srcAddr (s : State) (e : ErrCode) : (s.fail e).srcAddr = s.srcAddr := rfl
@[simp] theorem State.fail_srcLen (s : State) (e : ErrCode) : (s.fail e).srcLen = s.srcLen := rfl
@[simp] theorem State.fail_dstAddr (s : State) (e : ErrCode) : (s.fail e).dstAddr = s.dstAddr := rfl
@[simp] theorem State.fail_dstCap (s : State) (e : ErrCode) : (s.fail e).dstCap = s.dstCap := rfl
@[simp] theorem State.fail_result (s : State) (e : ErrCode) : (s.fail e).result = failureResult s.op := rfl
@[simp] theorem State.fail_phase (s : State) (e : ErrCode) : (s.fail e).phase = .idle := rfl
@[simp] theorem State.fail_op (s : State) (e : ErrCode) : (s.fail e).op = s.op := rfl
@[simp] theorem State.fail_latchAddr (s : State) (e : ErrCode) : (s.fail e).latchAddr = s.latchAddr := rfl
@[simp] theorem State.fail_latchLen (s : State) (e : ErrCode) : (s.fail e).latchLen = s.latchLen := rfl
@[simp] theorem State.fail_latchDst (s : State) (e : ErrCode) : (s.fail e).latchDst = s.latchDst := rfl
@[simp] theorem State.fail_latchCap (s : State) (e : ErrCode) : (s.fail e).latchCap = s.latchCap := rfl
@[simp] theorem State.fail_latchStrict (s : State) (e : ErrCode) : (s.fail e).latchStrict = s.latchStrict := rfl
@[simp] theorem State.fail_rd (s : State) (e : ErrCode) : (s.fail e).rd = s.rd := rfl
@[simp] theorem State.fail_wr (s : State) (e : ErrCode) : (s.fail e).wr = s.wr := rfl
@[simp] theorem State.fail_mem (s : State) (e : ErrCode) : (s.fail e).mem = s.mem := rfl
@[simp] theorem State.fail_schedule (s : State) (e : ErrCode) : (s.fail e).schedule = s.schedule := rfl
@[simp] theorem State.fail_observed (s : State) (e : ErrCode) : (s.fail e).observed = s.observed := rfl
@[simp] theorem State.fail_draws (s : State) (e : ErrCode) : (s.fail e).draws = s.draws := rfl

@[simp] theorem State.resetBlock_cfg (s : State) : s.resetBlock.cfg = s.cfg := rfl
@[simp] theorem State.resetBlock_ctrlStrict (s : State) : s.resetBlock.ctrlStrict = false := rfl
@[simp] theorem State.resetBlock_status (s : State) : s.resetBlock.status = State.reset.status := rfl
@[simp] theorem State.resetBlock_srcAddr (s : State) : s.resetBlock.srcAddr = 0 := rfl
@[simp] theorem State.resetBlock_srcLen (s : State) : s.resetBlock.srcLen = 0 := rfl
@[simp] theorem State.resetBlock_dstAddr (s : State) : s.resetBlock.dstAddr = 0 := rfl
@[simp] theorem State.resetBlock_dstCap (s : State) : s.resetBlock.dstCap = 0 := rfl
@[simp] theorem State.resetBlock_result (s : State) : s.resetBlock.result = 0 := rfl
@[simp] theorem State.resetBlock_phase (s : State) : s.resetBlock.phase = .idle := rfl
@[simp] theorem State.resetBlock_op (s : State) : s.resetBlock.op = .enc := rfl
@[simp] theorem State.resetBlock_latchAddr (s : State) : s.resetBlock.latchAddr = 0 := rfl
@[simp] theorem State.resetBlock_latchLen (s : State) : s.resetBlock.latchLen = 0 := rfl
@[simp] theorem State.resetBlock_latchDst (s : State) : s.resetBlock.latchDst = 0 := rfl
@[simp] theorem State.resetBlock_latchCap (s : State) : s.resetBlock.latchCap = 0 := rfl
@[simp] theorem State.resetBlock_latchStrict (s : State) : s.resetBlock.latchStrict = false := rfl
@[simp] theorem State.resetBlock_rd (s : State) : s.resetBlock.rd = 0 := rfl
@[simp] theorem State.resetBlock_wr (s : State) : s.resetBlock.wr = 0 := rfl
@[simp] theorem State.resetBlock_mem (s : State) : s.resetBlock.mem = Memory.writeBytes s.mem s.writeRegion.base (freeBytes s.draws s.writeRegion.len) := rfl
@[simp] theorem State.resetBlock_schedule (s : State) : s.resetBlock.schedule = s.schedule := rfl
@[simp] theorem State.resetBlock_observed (s : State) : s.resetBlock.observed = s.observed := rfl
@[simp] theorem State.resetBlock_draws (s : State) : s.resetBlock.draws = s.draws + s.writeRegion.len := rfl

/-! ### What the two status values say -/

@[simp] theorem Status.accepted_busy : Status.accepted.busy = true := rfl
@[simp] theorem Status.accepted_done : Status.accepted.done = false := rfl
@[simp] theorem Status.accepted_err : Status.accepted.err = .noError := rfl
@[simp] theorem Status.completed_busy (e : ErrCode) : (Status.completed e).busy = false := rfl
@[simp] theorem Status.completed_done (e : ErrCode) : (Status.completed e).done = true := rfl
@[simp] theorem Status.completed_err (e : ErrCode) : (Status.completed e).err = e := rfl
@[simp] theorem reset_status_busy : State.reset.status.busy = false := rfl
@[simp] theorem reset_status_done : State.reset.status.done = false := rfl
@[simp] theorem reset_status_err : State.reset.status.err = .noError := rfl

/-! ### A command is accepted, or ignored -/

theorem State.command_of_busy {s : State} (h : s.status.busy = true) (o : Op) : s.command o = s := by
  simp [State.command, h]

theorem State.command_of_ready {s : State} (h : s.status.busy = false) (o : Op) : s.command o = s.accept o := by
  simp [State.command, h]

end Sys2Proof.Machine
end

