-- ==== Sys2Proof/Laws/Ops.lean ====
section
/-! SUPPORT. One lemma per shared operation, saying once everything it can do: the stores, RUN's byte loop, the run
length, the token steps. -/

namespace Sys2Proof.Machine

/-! ### Outcomes -/

@[simp] theorem Result.andThen_next (s : State) (f : State → Result) : Result.andThen (.next s) f = f s := rfl
@[simp] theorem Result.andThen_fault (e : Fault) (f : State → Result) :
    Result.andThen (.fault e : Result) f = .fault e := rfl
@[simp] theorem Result.andThen_refused (r : Refusal) (f : State → Result) :
    Result.andThen (.refused r : Result) f = .refused r := rfl

/-! ### Stores -/

/-- The state after the engine has written `bytes` at `a` and moved its cursors. -/
def State.wrote (s : State) (a : Nat) (bytes : List Byte) (r w : Word) : State :=
  (s.setMem (Memory.writeBytes s.mem a bytes)).setCursors r w

@[simp] theorem State.wrote_cfg (s : State) (a bs r w) : (s.wrote a bs r w).cfg = s.cfg := rfl
@[simp] theorem State.wrote_ctrlStrict (s : State) (a bs r w) : (s.wrote a bs r w).ctrlStrict = s.ctrlStrict := rfl
@[simp] theorem State.wrote_status (s : State) (a bs r w) : (s.wrote a bs r w).status = s.status := rfl
@[simp] theorem State.wrote_srcAddr (s : State) (a bs r w) : (s.wrote a bs r w).srcAddr = s.srcAddr := rfl
@[simp] theorem State.wrote_srcLen (s : State) (a bs r w) : (s.wrote a bs r w).srcLen = s.srcLen := rfl
@[simp] theorem State.wrote_dstAddr (s : State) (a bs r w) : (s.wrote a bs r w).dstAddr = s.dstAddr := rfl
@[simp] theorem State.wrote_dstCap (s : State) (a bs r w) : (s.wrote a bs r w).dstCap = s.dstCap := rfl
@[simp] theorem State.wrote_result (s : State) (a bs r w) : (s.wrote a bs r w).result = s.result := rfl
@[simp] theorem State.wrote_phase (s : State) (a bs r w) : (s.wrote a bs r w).phase = s.phase := rfl
@[simp] theorem State.wrote_op (s : State) (a bs r w) : (s.wrote a bs r w).op = s.op := rfl
@[simp] theorem State.wrote_latchAddr (s : State) (a bs r w) : (s.wrote a bs r w).latchAddr = s.latchAddr := rfl
@[simp] theorem State.wrote_latchLen (s : State) (a bs r w) : (s.wrote a bs r w).latchLen = s.latchLen := rfl
@[simp] theorem State.wrote_latchDst (s : State) (a bs r w) : (s.wrote a bs r w).latchDst = s.latchDst := rfl
@[simp] theorem State.wrote_latchCap (s : State) (a bs r w) : (s.wrote a bs r w).latchCap = s.latchCap := rfl
@[simp] theorem State.wrote_latchStrict (s : State) (a bs r w) : (s.wrote a bs r w).latchStrict = s.latchStrict := rfl
@[simp] theorem State.wrote_rd (s : State) (a bs r w) : (s.wrote a bs r w).rd = r := rfl
@[simp] theorem State.wrote_wr (s : State) (a bs r w) : (s.wrote a bs r w).wr = w := rfl
@[simp] theorem State.wrote_mem (s : State) (a bs r w) : (s.wrote a bs r w).mem = Memory.writeBytes s.mem a bs := rfl
@[simp] theorem State.wrote_schedule (s : State) (a bs r w) : (s.wrote a bs r w).schedule = s.schedule := rfl
@[simp] theorem State.wrote_observed (s : State) (a bs r w) : (s.wrote a bs r w).observed = s.observed := rfl
@[simp] theorem State.wrote_draws (s : State) (a bs r w) : (s.wrote a bs r w).draws = s.draws := rfl

theorem storeBytes_next {a : Nat} {bytes : List Byte} {s : State} (h : a + bytes.length ≤ s.cfg.memSize) :
    storeBytes a bytes s = .next (s.setMem (Memory.writeBytes s.mem a bytes)) := by
  simp [storeBytes, State.inMemory, h]

/-- Everything a store can do: write its bytes, or fault where an address does not exist. -/
theorem storeBytes_cases (a : Nat) (bytes : List Byte) (s : State) :
    storeBytes a bytes s = .next (s.setMem (Memory.writeBytes s.mem a bytes)) ∨
      (storeBytes a bytes s = .fault .outsideMemory ∧ s.cfg.memSize < a + bytes.length) := by
  unfold storeBytes State.inMemory
  split
  · exact .inl rfl
  · rename_i h
    simp only [Bool.or_eq_true, decide_eq_true_eq, not_or] at h
    exact .inr ⟨rfl, by omega⟩

/-! ### Words and numbers -/

theorem toNat_add_small {w : Word} {k : Nat} (h : w.toNat + k < 2 ^ 32) : (w + BitVec.ofNat 32 k).toNat = w.toNat + k := by
  rw [BitVec.toNat_add, BitVec.toNat_ofNat, Nat.add_mod_mod]
  exact Nat.mod_eq_of_lt h

theorem setWidth_count (c : BitVec 7) : c.setWidth 32 = BitVec.ofNat 32 c.toNat := by
  apply BitVec.eq_of_toNat_eq
  simp

theorem toNat_lt_word (w : Word) : w.toNat < 2 ^ 32 := w.isLt

/-! ### LIT and RUN -/

/-- LIT where its byte fits. -/
theorem execLit_fits {v : Byte} {s : State} (hcap : s.wrN + 1 ≤ s.cap) (hmem : s.D + s.wrN + 1 ≤ s.cfg.memSize) :
    execLit v s = .next (s.wrote (s.D + s.wrN) [v] (s.rd + 1) (s.wr + 1)) := by
  unfold execLit
  rw [if_neg (by omega), storeBytes_next (by simpa using hmem)]
  rfl

/-- LIT where the output is full. -/
theorem execLit_overflow {v : Byte} {s : State} (hcap : s.cap < s.wrN + 1) :
    execLit v s = .next (s.fail .outputOverflow) := by
  unfold execLit
  rw [if_pos hcap]
  rfl

/-- RUN's byte loop where the run fits. -/
theorem runByteLoop_fits {v : Byte} (c : Nat) {s : State} (hcap : s.wrN + c ≤ s.cap)
    (hmem : s.D + s.wrN + c ≤ s.cfg.memSize) :
    runByteLoop v c s =
      .next (s.wrote (s.D + s.wrN) (List.replicate c v) (s.rd + 2) (s.wr + BitVec.ofNat 32 c)) := by
  induction c generalizing s with
  | zero =>
    show _ = Host.Outcome.next (s.setCursors (s.rd + 2) (s.wr + 0#32))
    rw [BitVec.add_zero]
    rfl
  | succ c ih =>
    have hb := toNat_lt_word s.latchCap
    unfold runByteLoop
    rw [if_neg (by omega), storeBytes_next (by simp only [List.length_singleton]; omega)]
    have hw : (s.wr + 1).toNat = s.wrN + 1 := toNat_add_small (k := 1) (by simp only [State.wrN, State.cap] at *; omega)
    simp only [Result.andThen_next]
    let t := (s.setMem (Memory.writeBytes s.mem (s.D + s.wrN) [v])).setCursors s.rd (s.wr + 1)
    have ht : t.wrN = s.wrN + 1 := hw
    have hD : t.D = s.D := rfl
    have hC : t.cap = s.cap := rfl
    have hM : t.cfg = s.cfg := rfl
    refine (ih (s := t) (by omega) (by rw [hM]; omega)).trans ?_
    have h1 : s.wr + 1 + BitVec.ofNat 32 c = s.wr + BitVec.ofNat 32 (c + 1) := by
      apply BitVec.eq_of_toNat_eq
      have hw' : (s.wr + 1).toNat = s.wr.toNat + 1 := hw
      simp only [State.wrN, State.cap] at *
      rw [toNat_add_small (by omega), toNat_add_small (by omega)]
      omega
    rw [hD, ht]
    simp only [t, State.wrote, State.setMem, State.setCursors, State.wrN, State.D, h1, Memory.writeBytes,
      List.replicate_succ, Nat.add_assoc]

/-- RUN's byte loop where the output fills up: the bytes that fit are written, then OUTPUT_OVERFLOW. -/
theorem runByteLoop_overflow {v : Byte} (c : Nat) {s : State} (hwr : s.wrN ≤ s.cap) (hcap : s.cap < s.wrN + c)
    (hmem : s.D + s.cap ≤ s.cfg.memSize) :
    runByteLoop v c s =
      .next ((s.wrote (s.D + s.wrN) (List.replicate (s.cap - s.wrN) v) s.rd s.latchCap).fail .outputOverflow) := by
  induction c generalizing s with
  | zero => omega
  | succ c ih =>
    have hb := toNat_lt_word s.latchCap
    unfold runByteLoop
    by_cases hfull : s.wrN + 1 > s.cap
    · rw [if_pos hfull]
      have h0 : s.cap - s.wrN = 0 := by omega
      have hw : s.latchCap = s.wr := BitVec.eq_of_toNat_eq (by simp only [State.wrN, State.cap] at *; omega)
      rw [h0, hw]
      rfl
    · rw [if_neg hfull, storeBytes_next (by simp only [List.length_singleton]; omega)]
      have hw : (s.wr + 1).toNat = s.wrN + 1 :=
        toNat_add_small (k := 1) (by simp only [State.wrN, State.cap] at *; omega)
      simp only [Result.andThen_next]
      let t := (s.setMem (Memory.writeBytes s.mem (s.D + s.wrN) [v])).setCursors s.rd (s.wr + 1)
      have ht : t.wrN = s.wrN + 1 := hw
      have hD : t.D = s.D := rfl
      have hC : t.cap = s.cap := rfl
      have hM : t.cfg = s.cfg := rfl
      refine (ih (s := t) (by omega) (by omega) (by rw [hM]; omega)).trans ?_
      obtain ⟨k, hk⟩ : ∃ k, s.cap - s.wrN = k + 1 := ⟨s.cap - s.wrN - 1, by omega⟩
      have hk' : t.cap - t.wrN = k := by omega
      rw [hk', hk, hD, ht]
      simp only [t, State.wrote, State.setMem, State.setCursors, State.wrN, State.D, Memory.writeBytes,
        List.replicate_succ, Nat.add_assoc]

/-- RUN whose value byte is not in the stream. -/
theorem execRun_truncated {c : BitVec 7} {v : Byte} {s : State} (h : s.tlen ≤ s.rdN + 1) :
    execRun c v s = .next (s.fail .truncatedStream) := by
  unfold execRun
  rw [if_pos h]
  rfl

/-- RUN where the run fits: the same under either value of DEC_OVF_CHECK. -/
theorem execRun_fits {c : BitVec 7} {v : Byte} {s : State} (hrd : s.rdN + 1 < s.tlen) (hcap : s.wrN + c.toNat ≤ s.cap)
    (hmem : s.D + s.wrN + c.toNat ≤ s.cfg.memSize) :
    execRun c v s =
      .next (s.wrote (s.D + s.wrN) (List.replicate c.toNat v) (s.rd + 2) (s.wr + BitVec.ofNat 32 c.toNat)) := by
  unfold execRun
  rw [if_neg (by omega)]
  cases s.cfg.decOvfCheck with
  | run =>
    simp only
    rw [if_neg (by omega), storeBytes_next (by simpa using hmem), setWidth_count]
    rfl
  | byte => exact runByteLoop_fits _ hcap hmem

/-- RUN where the run does not fit, under RUN: no byte of it is written. -/
theorem execRun_overflow_run {c : BitVec 7} {v : Byte} {s : State} (hmode : s.cfg.decOvfCheck = .run)
    (hrd : s.rdN + 1 < s.tlen) (hcap : s.cap < s.wrN + c.toNat) :
    execRun c v s = .next (s.fail .outputOverflow) := by
  unfold execRun
  rw [if_neg (by omega), hmode]
  simp only
  rw [if_pos hcap]
  rfl

/-- RUN where the run does not fit, under BYTE: the bytes that fit are written. -/
theorem execRun_overflow_byte {c : BitVec 7} {v : Byte} {s : State} (hmode : s.cfg.decOvfCheck = .byte)
    (hrd : s.rdN + 1 < s.tlen) (hwr : s.wrN ≤ s.cap) (hcap : s.cap < s.wrN + c.toNat)
    (hmem : s.D + s.cap ≤ s.cfg.memSize) :
    execRun c v s =
      .next ((s.wrote (s.D + s.wrN) (List.replicate (s.cap - s.wrN) v) s.rd s.latchCap).fail .outputOverflow) := by
  unfold execRun
  rw [if_neg (by omega), hmode]
  exact runByteLoop_overflow _ hwr hcap hmem

/-! ### The run length -/

theorem leadingRun_le_length (v : Byte) (xs : List Byte) : leadingRun v xs ≤ xs.length := by
  induction xs with
  | nil => simp [leadingRun]
  | cons x xs ih => simp only [leadingRun, List.length_cons]; split <;> omega

theorem take_leadingRun (v : Byte) (xs : List Byte) :
    xs.take (leadingRun v xs) = List.replicate (leadingRun v xs) v := by
  induction xs with
  | nil => rfl
  | cons x xs ih =>
    simp only [leadingRun]
    split
    · subst_vars; simp [List.replicate_succ, ih]
    · rfl

theorem getElem_leadingRun {v : Byte} {xs : List Byte} (h : leadingRun v xs < xs.length) :
    xs[leadingRun v xs] ≠ v := by
  induction xs with
  | nil => simp at h
  | cons x xs ih =>
    by_cases hx : x = v
    · have he : leadingRun v (x :: xs) = leadingRun v xs + 1 := by simp [leadingRun, hx]
      have h2 : leadingRun v xs < xs.length := by simp only [he, List.length_cons] at h; omega
      simpa [he] using ih h2
    · have he : leadingRun v (x :: xs) = 0 := by simp [leadingRun, hx]
      simpa [he] using hx

theorem leadingRun_head (v : Byte) (xs : List Byte) : leadingRun v (v :: xs) = leadingRun v xs + 1 := by
  simp [leadingRun]

theorem runlen_le (m : Memory) (a k : Nat) : runlen m a k ≤ min 127 k := by
  have := leadingRun_le_length (Memory.readByte m a) (Memory.readBytes m a (min Config.maxCount k))
  simpa [runlen] using this

theorem runlen_pos (m : Memory) (a : Nat) {k : Nat} (h : 0 < k) : 1 ≤ runlen m a k := by
  obtain ⟨j, hj⟩ : ∃ j, min Config.maxCount k = j + 1 := ⟨min Config.maxCount k - 1, by simp only [Config.maxCount]; omega⟩
  simp [runlen, hj, Memory.readBytes, leadingRun]

/-- The run length as the head run of the remaining input. -/
theorem runlen_eq_leadingRun (m : Memory) (a k : Nat) :
    runlen m a k = leadingRun (Memory.readByte m a) ((Memory.readBytes m a k).take Config.maxCount) := by
  rw [runlen, readBytes_min]

theorem runlen_congr {m q : Memory} {a k : Nat} (hk : 0 < k)
    (h : ∀ b, a ≤ b → b < a + k → Memory.readByte m b = Memory.readByte q b) : runlen m a k = runlen q a k := by
  rw [runlen_eq_leadingRun, runlen_eq_leadingRun, readBytes_congr h, h a (Nat.le_refl a) (by omega)]

/-! ### The encoder's token step -/

/-- The bytes of the token that the encoder emits for a run of `c` copies of `v` (R106, R107). -/
def emittedBytes (c : Nat) (v : Byte) : List Byte := if c = 1 then [v] else [runHeader (BitVec.ofNat 7 c), v]

theorem emit_next {bytes : List Byte} {s : State} (h : s.B + s.wrN + bytes.length ≤ s.cfg.memSize) :
    emit bytes s = .next (s.wrote (s.B + s.wrN) bytes s.rd (s.wr + BitVec.ofNat 32 bytes.length)) := by
  unfold emit
  rw [storeBytes_next h]
  rfl

/-- An encode token step whose buffer is present and whose write cursor has not passed the read cursor (R105). -/
theorem encodeTokenStep_next {s : State} (hrd : s.rdN < s.n) (hwr : s.wrN ≤ s.rdN) (hp : s.B + s.n ≤ s.cfg.memSize) :
    encodeTokenStep s =
      .next (s.wrote (s.B + s.wrN) (emittedBytes (runlen s.mem (s.B + s.rdN) (s.n - s.rdN)) (Memory.readByte s.mem (s.B + s.rdN)))
        (s.rd + BitVec.ofNat 32 (runlen s.mem (s.B + s.rdN) (s.n - s.rdN)))
        (s.wr + BitVec.ofNat 32
          (emittedBytes (runlen s.mem (s.B + s.rdN) (s.n - s.rdN)) (Memory.readByte s.mem (s.B + s.rdN))).length)) := by
  have hle := runlen_le s.mem (s.B + s.rdN) (s.n - s.rdN)
  have hpos := runlen_pos s.mem (s.B + s.rdN) (k := s.n - s.rdN) (by omega)
  have hin : s.inMemory (s.B + s.rdN) (min Config.maxCount (s.n - s.rdN)) = true := by
    simp only [State.inMemory, Bool.or_eq_true, decide_eq_true_eq]
    right; omega
  unfold encodeTokenStep
  simp only [hin, if_true]
  generalize runlen s.mem (s.B + s.rdN) (s.n - s.rdN) = c at *
  by_cases hc : c = 1
  · simp only [hc, if_true, emitLit, emittedBytes]
    rw [emit_next (by simp only [List.length_singleton]; omega)]
    rfl
  · simp only [hc, if_false, emitRun, emittedBytes]
    rw [emit_next (by simp only [List.length_cons, List.length_nil]; omega)]
    rfl

theorem length_emittedBytes_le {c : Nat} (h : 1 ≤ c) (v : Byte) :
    1 ≤ (emittedBytes c v).length ∧ (emittedBytes c v).length ≤ c := by
  unfold emittedBytes
  split <;> simp <;> omega

end Sys2Proof.Machine
end

