-- ==== Sys2Proof/Laws/Engine.lean ====
section
/-! SUPPORT. The token decoder's lemmas, what the engine's checks establish, and the one inversion lemma of the engine's
step: from a legal state it makes one of the moves of EngineMove. -/

namespace Sys2Proof

theorem isRunHeader_iff (b : Byte) : isRunHeader b = decide (0x80 ≤ b.toNat) := by revert b; decide

theorem isRunHeader_runHeader (c : BitVec 7) : isRunHeader (runHeader c) = true := by revert c; decide

theorem headerCount_runHeader (c : BitVec 7) : headerCount (runHeader c) = c := by revert c; decide

theorem runHeader_headerCount {b : Byte} (h : isRunHeader b = true) : runHeader (headerCount b) = b := by
  revert b; decide

theorem toNat_headerCount (b : Byte) : (headerCount b).toNat = b.toNat % 128 := by simp [headerCount]

end Sys2Proof

namespace Sys2Proof.Machine

/-! ### What the checks establish -/

theorem encodeArgsOk_iff (s : State) : s.encodeArgsOk = true ↔ s.n ≠ 0 ∧ s.B + s.n ≤ s.cfg.memSize := by
  simp [State.encodeArgsOk, present]

theorem decodeArgsOk_iff (s : State) :
    s.decodeArgsOk = true ↔ s.tlen ≠ 0 ∧ s.T + s.tlen ≤ s.cfg.memSize ∧ s.D + s.cap ≤ s.cfg.memSize := by
  simp [State.decodeArgsOk, present, and_assoc]

theorem inRegion_iff (r : Region) (a : Nat) : inRegion r a = true ↔ r.base ≤ a ∧ a < r.base + r.len := by
  simp [inRegion]

theorem mayTouch_idle {s : State} (hp : s.phase = .idle) (a : Nat) : s.mayTouch a = false := by
  simp [State.mayTouch, hp]

theorem mayTouch_enc {s : State} (hp : s.phase = .active) (ho : s.op = .enc) (a : Nat) :
    s.mayTouch a = true ↔ s.encodeArgsOk = true ∧ s.B ≤ a ∧ a < s.B + s.n := by
  simp only [State.mayTouch, hp, ho, Bool.and_eq_true, inRegion_iff]
  rfl

theorem mayTouch_dec {s : State} (hp : s.phase = .active) (ho : s.op = .dec) (a : Nat) :
    s.mayTouch a = true ↔
      s.decodeArgsOk = true ∧ ((s.T ≤ a ∧ a < s.T + s.tlen) ∨ (s.D ≤ a ∧ a < s.D + s.cap)) := by
  simp only [State.mayTouch, hp, ho, Bool.and_eq_true, Bool.or_eq_true, inRegion_iff]
  rfl

theorem regionsOverlap_eq_false {r q : Region} (h : regionsOverlap r q = false) (a : Nat) :
    ¬((r.base ≤ a ∧ a < r.base + r.len) ∧ (q.base ≤ a ∧ a < q.base + q.len)) := by
  have := of_decide_eq_false h
  omega

theorem encodeChecks_proceed {s : State} (h : s.encodeChecks = .proceed) :
    s.encodeArgsOk = true ∧ hasDevice s.cfg s.buffer = false ∧ (s.latchStrict && s.strictFinds) = false := by
  unfold State.encodeChecks at h
  split at h
  · cases h
  · split at h
    · cases h
    · split at h
      · cases h
      · simp_all

theorem decodeChecks_proceed {s : State} (h : s.decodeChecks = .proceed) :
    s.decodeArgsOk = true ∧ regionsOverlap s.tokens s.output = false ∧
      hasDevice s.cfg s.tokens = false ∧ hasDevice s.cfg s.output = false := by
  unfold State.decodeChecks at h
  split at h
  · cases h
  · split at h
    · cases h
    · split at h
      · cases h
      · simp_all

theorem verdict_of_started {s : State} (h : s.rdN ≠ 0) : s.verdict = .proceed := by
  unfold State.verdict
  rw [if_neg h]

/-- A legal running ENCODE past its checks has valid arguments. -/
theorem encode_started {s : State} (hs : s.Inv) (ha : s.phase = .active) (ho : s.op = .enc) (hv : s.verdict = .proceed) :
    s.encodeArgsOk = true ∧ hasDevice s.cfg s.buffer = false := by
  by_cases h0 : s.rdN = 0
  · simp only [State.verdict, h0, if_true, ho] at hv
    exact ⟨(encodeChecks_proceed hv).1, (encodeChecks_proceed hv).2.1⟩
  · have := hs.cursors ha
    simp only [State.cursorsLegal, ho] at this
    exact (this.2.2 h0).2

/-- A legal running DECODE past its checks has passed them. -/
theorem decode_started {s : State} (hs : s.Inv) (ha : s.phase = .active) (ho : s.op = .dec) (hv : s.verdict = .proceed) :
    s.decodeChecks = .proceed := by
  by_cases h0 : s.rdN = 0
  · simpa only [State.verdict, h0, if_true, ho] using hv
  · have := hs.cursors ha
    simp only [State.cursorsLegal, ho] at this
    exact this.2.2.2 h0

/-! ### The engine's moves -/

/-- What one engine step does, from a legal state. -/
inductive EngineMove (s : State) : Result → Prop where
  /-- nothing, while idle (R186) -/
  | rests (hp : s.phase = .idle) : EngineMove s (.next s)
  /-- the checks fail the operation (R100, R130, R172) -/
  | rejects (e : ErrCode) (hp : s.phase = .active) (hv : s.verdict = .fail e) : EngineMove s (.next (s.fail e))
  /-- the checks refuse the program (R68, R58) -/
  | refuses (r : Refusal) (hp : s.phase = .active) (hv : s.verdict = .refuse r) : EngineMove s (.refused r)
  /-- the input is consumed (R142, R175) -/
  | completes (hp : s.phase = .active) (ho : s.op = .enc ∨ s.op = .dec) (h0 : s.rdN ≠ 0)
      (hrd : s.rdN = s.latchLen.toNat) : EngineMove s (.next (s.complete s.wr))
  /-- the encoder emits a token for a run of `c` copies of `v` (R105) -/
  | emits (c : Nat) (v : Byte) (hp : s.phase = .active) (ho : s.op = .enc) (hv : s.verdict = .proceed)
      (hc : c = runlen s.mem (s.B + s.rdN) (s.n - s.rdN)) (hb : v = Memory.readByte s.mem (s.B + s.rdN))
      (hpos : 1 ≤ c) (hle : c ≤ 127) (hend : s.rdN + c ≤ s.n) (hwr : s.wrN ≤ s.rdN) :
      EngineMove s (.next (s.wrote (s.B + s.wrN) (emittedBytes c v) (s.rd + BitVec.ofNat 32 c)
        (s.wr + BitVec.ofNat 32 (emittedBytes c v).length)))
  /-- the decoder executes a token of `k` bytes that writes `bytes` (R140, R141) -/
  | writes (k : Nat) (bytes : List Byte) (hp : s.phase = .active) (ho : s.op = .dec) (hv : s.verdict = .proceed)
      (hk : k = 1 ∨ k = 2) (hend : s.rdN + k ≤ s.tlen) (hcap : s.wrN + bytes.length ≤ s.cap) :
      EngineMove s (.next (s.wrote (s.D + s.wrN) bytes (s.rd + BitVec.ofNat 32 k)
        (s.wr + BitVec.ofNat 32 bytes.length)))
  /-- the decoder stops in a token, having written `bytes` of it (R140, R141) -/
  | stops (e : ErrCode) (bytes : List Byte) (w : Word) (hp : s.phase = .active) (ho : s.op = .dec)
      (hv : s.verdict = .proceed) (he : e = .truncatedStream ∨ e = .outputOverflow) (hw : w.toNat = s.wrN + bytes.length)
      (hcap : s.wrN + bytes.length ≤ s.cap) :
      EngineMove s (.next ((s.wrote (s.D + s.wrN) bytes s.rd w).fail e))

theorem writeBytes_nil (s : State) (a : Nat) : s.wrote a [] s.rd s.wr = s := rfl

/-- A decode token step, from a state whose checks have passed. -/
theorem decodeTokenStep_move {s : State} (hp : s.phase = .active) (ho : s.op = .dec) (hv : s.verdict = .proceed)
    (hc : s.decodeChecks = .proceed) (hrd : s.rdN < s.tlen) (hwr : s.wrN ≤ s.cap) : EngineMove s (decodeTokenStep s) := by
  have hargs := (decodeArgsOk_iff s).1 (decodeChecks_proceed hc).1
  have hin : s.inMemory (s.T + s.rdN) (min 2 (s.tlen - s.rdN)) = true := by
    simp only [State.inMemory, Bool.or_eq_true, decide_eq_true_eq]; right; omega
  have truncated : EngineMove s (.next (s.fail .truncatedStream)) :=
    .stops .truncatedStream [] s.wr hp ho hv (.inl rfl) rfl hwr
  have overflow : EngineMove s (.next (s.fail .outputOverflow)) :=
    .stops .outputOverflow [] s.wr hp ho hv (.inr rfl) rfl hwr
  have hw0 : ∃ b more, s.tokenWindow = b :: more := by
    obtain ⟨j, hj⟩ : ∃ j, min 2 (s.tlen - s.rdN) = j + 1 := ⟨min 2 (s.tlen - s.rdN) - 1, by omega⟩
    exact ⟨_, _, by rw [State.tokenWindow, hj]; rfl⟩
  obtain ⟨b, more, hw⟩ := hw0
  unfold decodeTokenStep
  rw [if_pos hin, hw]
  simp only [decodeToken]
  by_cases hb : isRunHeader b
  · rw [if_pos hb]
    cases more with
    | nil => exact truncated
    | cons v rest =>
      simp only [exec]
      generalize headerCount b = c
      by_cases h1 : s.rdN + 1 < s.tlen
      · by_cases h2 : s.wrN + c.toNat ≤ s.cap
        · rw [execRun_fits h1 h2 (by omega)]
          have := EngineMove.writes (s := s) 2 (List.replicate c.toNat v) hp ho hv (.inr rfl) (by omega) (by simpa using h2)
          simpa using this
        · cases hm : s.cfg.decOvfCheck with
          | run => rw [execRun_overflow_run hm h1 (by omega)]; exact overflow
          | byte =>
            rw [execRun_overflow_byte hm h1 hwr (by omega) (by omega)]
            refine .stops .outputOverflow (List.replicate (s.cap - s.wrN) v) s.latchCap hp ho hv (.inr rfl) ?_ ?_ <;>
              simp only [List.length_replicate, State.cap, State.wrN] at * <;> omega
      · rw [execRun_truncated (by omega)]; exact truncated
  · rw [if_neg hb]
    simp only [exec]
    by_cases h2 : s.wrN + 1 ≤ s.cap
    · rw [execLit_fits h2 (by omega)]
      exact .writes 1 [b] hp ho hv (.inl rfl) (by omega) (by simpa using h2)
    · rw [execLit_overflow (by omega)]; exact overflow

/-- Everything the engine can do from a legal state. -/
theorem engineStep_move {s : State} (hs : s.Inv) : EngineMove s (engineStep s) := by
  unfold engineStep
  cases hp : s.phase with
  | idle => exact .rests hp
  | active =>
    simp only
    have hcur := hs.cursors hp
    cases hv : s.verdict with
    | fail e => exact .rejects e hp hv
    | refuse r => exact .refuses r hp hv
    | proceed =>
      simp only [operationTurn]
      cases ho : s.op with
      | enc =>
        have hargs := (encodeArgsOk_iff s).1 (encode_started hs hp ho hv).1
        simp only [State.cursorsLegal, ho] at hcur
        simp only [encodeTurn]
        split
        · rename_i hrd
          have hle := runlen_le s.mem (s.B + s.rdN) (s.n - s.rdN)
          have hpos := runlen_pos s.mem (s.B + s.rdN) (k := s.n - s.rdN) (by omega)
          rw [encodeTokenStep_next hrd hcur.2.1 hargs.2]
          exact .emits _ _ hp ho hv rfl rfl hpos (by omega) (by omega) hcur.2.1
        · exact .completes hp (.inl ho) (by omega) (show s.rdN = s.n by omega)
      | dec =>
        have hc := decode_started hs hp ho hv
        have hargs := (decodeArgsOk_iff s).1 (decodeChecks_proceed hc).1
        simp only [State.cursorsLegal, ho] at hcur
        simp only [decodeTurn]
        split
        · rename_i hrd
          exact decodeTokenStep_move hp ho hv hc hrd hcur.2.1
        · exact .completes hp (.inr ho) (by omega) (show s.rdN = s.tlen by omega)
      | ill =>
        simp only [State.cursorsLegal, ho] at hcur
        simp [State.verdict, hcur.1, ho] at hv

end Sys2Proof.Machine
end

