-- ==== Sys2Proof/Laws/Functional.lean ====
section
/-! SUPPORT. Lemmas of the functional forms: the encoder's tokens one at a time, what the strict check looks for, the
decoder's recursion on a literal; and one engine step of a run. -/

namespace Sys2Proof.Machine

/-! ### The encoder's tokens -/

theorem leadingRun_take_pos (v : Byte) (rest : List Byte) : 1 ≤ leadingRun v ((v :: rest).take Config.maxCount) := by
  show 1 ≤ leadingRun v (List.take (126+1) (v :: rest))
  rw [List.take_succ_cons, leadingRun_head]; omega

theorem leadingRun_take_le (v : Byte) (S : List Byte) :
    leadingRun v (S.take Config.maxCount) ≤ 127 ∧ leadingRun v (S.take Config.maxCount) ≤ S.length := by
  have := leadingRun_le_length v (S.take Config.maxCount)
  simp only [List.length_take, Config.maxCount] at this
  constructor <;> simp only [Config.maxCount] <;> omega

/-- Fuel of the input's length is enough. -/
theorem emissionsFuel_eq (f g : Nat) (S : List Byte) (hf : S.length ≤ f) (hg : S.length ≤ g) :
    emissionsFuel f S = emissionsFuel g S := by
  induction f generalizing g S with
  | zero => cases S with
    | nil => cases g <;> rfl
    | cons => simp at hf
  | succ f ih =>
    cases S with
    | nil => cases g <;> rfl
    | cons v rest =>
      cases g with
      | zero => simp at hg
      | succ g =>
        simp only [emissionsFuel]
        have := leadingRun_take_pos v rest
        congr 1
        apply ih <;> simp only [List.length_drop, List.length_cons] at * <;> omega

theorem emissions_nil : emissions [] = [] := rfl

theorem emissions_cons (v : Byte) (rest : List Byte) :
    emissions (v :: rest) =
      (if leadingRun v ((v :: rest).take Config.maxCount) = 1 then Emission.lit v
        else .run (leadingRun v ((v :: rest).take Config.maxCount)) v) ::
      emissions ((v :: rest).drop (leadingRun v ((v :: rest).take Config.maxCount))) := by
  have := leadingRun_take_pos v rest
  show emissionsFuel (rest.length + 1) (v :: rest) = _
  simp only [emissionsFuel]
  congr 1
  apply emissionsFuel_eq <;> simp only [List.length_drop, List.length_cons] <;> omega

theorem bytes_of_run (c : Nat) (v : Byte) : (if c = 1 then Emission.lit v else .run c v).bytes = emittedBytes c v := by
  unfold emittedBytes; split <;> rfl

theorem enc_cons (v : Byte) (rest : List Byte) :
    enc (v :: rest) =
      emittedBytes (leadingRun v ((v :: rest).take Config.maxCount)) v ++
        enc ((v :: rest).drop (leadingRun v ((v :: rest).take Config.maxCount))) := by
  unfold enc
  rw [emissions_cons, List.flatMap_cons, bytes_of_run]

/-- Induction along the encoder's tokens: a non-empty input is a head run of `c` copies of `v`, and the rest. -/
theorem emit_induction {P : List Byte → Prop} (h0 : P [])
    (h1 : ∀ (v : Byte) (rest : List Byte) (c : Nat), c = leadingRun v ((v :: rest).take Config.maxCount) →
      1 ≤ c → c ≤ 127 → c ≤ (v :: rest).length → (v :: rest) = List.replicate c v ++ (v :: rest).drop c →
      P ((v :: rest).drop c) → P (v :: rest))
    (S : List Byte) : P S := by
  have : ∀ n (S : List Byte), S.length ≤ n → P S := by
    intro n
    induction n with
    | zero => intro S hS; cases S with
      | nil => exact h0
      | cons => simp at hS
    | succ n ih =>
      intro S hS
      cases S with
      | nil => exact h0
      | cons v rest =>
        have hp := leadingRun_take_pos v rest
        have hl := leadingRun_take_le v (v :: rest)
        refine h1 v rest _ rfl hp hl.1 hl.2 ?_ (ih _ ?_)
        · have := take_leadingRun v ((v :: rest).take Config.maxCount)
          rw [List.take_take, Nat.min_eq_left hl.1] at this
          rw [← this, List.take_append_drop]
        · simp only [List.length_drop, List.length_cons] at *; omega
  exact this _ S (Nat.le_refl _)

theorem length_emittedBytes (c : Nat) (v : Byte) : (emittedBytes c v).length = if c = 1 then 1 else 2 := by
  unfold emittedBytes; split <;> rfl

/-! ### The same over the bytes of M -/

theorem emissions_readBytes (m : Memory) (a k : Nat) (hk : 0 < k) :
    emissions (Memory.readBytes m a k) =
      (if runlen m a k = 1 then Emission.lit (Memory.readByte m a)
        else .run (runlen m a k) (Memory.readByte m a)) ::
      emissions (Memory.readBytes m (a + runlen m a k) (k - runlen m a k)) := by
  rw [← readBytes_drop, runlen_eq_leadingRun]
  obtain ⟨j, rfl⟩ : ∃ j, k = j + 1 := ⟨k - 1, by omega⟩
  simp only [Memory.readBytes]
  exact emissions_cons _ _

theorem enc_readBytes (m : Memory) (a k : Nat) (hk : 0 < k) :
    enc (Memory.readBytes m a k) =
      emittedBytes (runlen m a k) (Memory.readByte m a) ++
        enc (Memory.readBytes m (a + runlen m a k) (k - runlen m a k)) := by
  unfold enc
  rw [emissions_readBytes m a k hk, List.flatMap_cons, bytes_of_run]

theorem literalScan_iff (m : Memory) (base n : Nat) (fuel r : Nat) (hf : n - r ≤ fuel) :
    literalScan m base n fuel r = true ↔
      ∃ v, Emission.lit v ∈ emissions (Memory.readBytes m (base + r) (n - r)) ∧ 0x80 ≤ v.toNat := by
  induction fuel generalizing r with
  | zero =>
    have : n - r = 0 := by omega
    simp [literalScan, this, Memory.readBytes, emissions_nil]
  | succ f ih =>
    simp only [literalScan]
    by_cases hr : r < n
    · simp only [hr, if_true]
      have hp := runlen_pos m (base + r) (k := n - r) (by omega)
      have hl := runlen_le m (base + r) (n - r)
      have ih' := ih (r + runlen m (base + r) (n - r)) (by omega)
      rw [emissions_readBytes m (base + r) (n - r) (by omega)]
      have e1 : base + (r + runlen m (base + r) (n - r)) = base + r + runlen m (base + r) (n - r) := by omega
      have e2 : n - (r + runlen m (base + r) (n - r)) = n - r - runlen m (base + r) (n - r) := by omega
      rw [e1, e2] at ih'
      split
      · rename_i h
        simp only [true_iff]
        refine ⟨_, ?_, by simpa [highByte] using h.2⟩
        rw [if_pos h.1]; simp
      · rename_i h
        rw [ih']
        constructor
        · rintro ⟨v, h1, h2⟩; exact ⟨v, List.mem_cons_of_mem _ h1, h2⟩
        · rintro ⟨v, h1, h2⟩
          rcases List.mem_cons.1 h1 with h1 | h1
          · split at h1
            · cases h1; exact absurd ⟨by assumption, by simpa [highByte] using h2⟩ h
            · cases h1
          · exact ⟨v, h1, h2⟩
    · have : n - r = 0 := by omega
      simp [hr, this, Memory.readBytes, emissions_nil]

/-- What the strict check looks for under each scope (R104). -/
theorem strictFinds_iff (s : State) :
    s.strictFinds = true ↔
      match s.cfg.strictScope with
        | .all => ∃ v ∈ Memory.readBytes s.mem s.B s.n, 0x80 ≤ v.toNat
        | .literal => ∃ v, Emission.lit v ∈ emissions (Memory.readBytes s.mem s.B s.n) ∧ 0x80 ≤ v.toNat := by
  unfold State.strictFinds
  cases s.cfg.strictScope with
  | all => simp [highByte]
  | literal => simpa using literalScan_iff s.mem s.B s.n s.n 0 (by omega)

/-! ### The decoder's recursion -/

theorem decGo_lit (mode cap) {b : Byte} (hb : isRunHeader b = false) (rest acc : List Byte) :
    decGo mode cap (b :: rest) acc =
      if acc.length + 1 > cap then (.outputOverflow, acc) else decGo mode cap rest (acc ++ [b]) := by
  rw [decGo.eq_def]; simp only [hb, Bool.false_eq_true, if_false]

/-! ### Runs -/

/-- A run from a state with no turns left begins with an engine step. -/
theorem run_succ {s u : State} (hs : s.schedule = []) (h : engineStep s = .next u) (k : Nat) :
    core.run (k + 1) s = core.run k u := by
  have : core.step s = .next u := by show step s = _; unfold step; rw [hs]; exact h
  simp only [Host.Core.run, this]

end Sys2Proof.Machine
end

