-- ==== Sys2Proof/Laws/HostPort.lean ====
section
/-! SUPPORT. What a register access reaches, what a write to CMD does, and how writes to different bytes commute. -/

namespace Sys2Proof.Machine

/-- An aligned 32-bit access inside the window reaches the register at its offset. -/
theorem regAccess_ok (c : Config) (off : Nat) (h : off < 0x40) (h4 : off % 4 = 0) :
    regAccess c (c.regBase + off) 32 = .ok (regAt off) := by
  unfold regAccess windowSize
  rw [if_neg (by omega), if_neg (by simp; omega)]
  simp

/-- A host write to CMD executes the word. -/
theorem hostStep_cmd (s : State) (w : Word) :
    hostStep (.regWrite (s.cfg.regBase + 0x04) 32 w) s = commandWrite w s := by
  simp only [hostStep, regAccess_ok s.cfg 4 (by omega) (by omega)]
  rfl

/-- Every word written to CMD is a command; the whole word says which (R90, R91). -/
theorem commandWrite_eq (w : Word) (s : State) :
    commandWrite w s = .next (s.command (if w.toNat = 1 then .enc else if w.toNat = 2 then .dec else .ill)) := by
  have h1 : w = 1#32 ↔ w.toNat = 1 := by simp [← BitVec.toNat_inj]
  have h2 : w = 2#32 ↔ w.toNat = 2 := by simp [← BitVec.toNat_inj]
  unfold commandWrite decodeCommand
  by_cases ha : w.toNat = 1
  · rw [if_pos (h1.2 ha), if_pos ha]; rfl
  · by_cases hb : w.toNat = 2
    · rw [if_neg (mt h1.1 ha), if_pos (h2.2 hb), if_neg ha, if_pos hb]; rfl
    · rw [if_neg (mt h1.1 ha), if_neg (mt h2.1 hb), if_neg ha, if_neg hb]; rfl

/-- Writes of different bytes commute. -/
theorem writeBytes_writeByte_comm {m : Memory} (hm : Memory.wf m) (a x : Nat) (v : Byte) (bs : List Byte)
    (h : a < x ∨ x + bs.length ≤ a) :
    Memory.writeBytes (Memory.writeByte m a v) x bs
      = Memory.writeByte (Memory.writeBytes m x bs) a v := by
  apply Memory.ext (writeBytes_wf (writeByte_wf hm _ _) _ _) (writeByte_wf (writeBytes_wf hm _ _) _ _)
  intro b
  rw [readByte_writeBytes (writeByte_wf hm _ _), readByte_writeByte hm, readByte_writeByte (writeBytes_wf hm _ _), readByte_writeBytes hm]
  split <;> split <;> first | rfl | omega

end Sys2Proof.Machine
end

