-- ==== Sys2Proof/Laws/PerInstr.lean ====
section
/-! SUPPORT. Statements made per instruction: the encoder agrees with spec/opcode_table.json. -/

namespace Sys2Proof.Laws.TableMatch

/-- The code of a well-formed instruction matches one row of the opcode table: the row of its mnemonic. -/
def Statement (i : Instr) : Prop :=
  i.wellFormed = true → ∀ r ∈ opcodeTable, r.matchesCode (encode i) = true ↔ r.mnemonic = i.mnemonic

theorem lit (v : Byte) : Statement (.lit v) := by
  unfold Statement
  revert v
  decide

/-- The header of a run has bit 7 set whatever the count. -/
theorem header_masked : ∀ c : BitVec 7, Nat.land (runHeader c).toNat 0x80 = 0x80 := by decide

theorem run (c : BitVec 7) (v : Byte) : Statement (.run c v) := by
  intro _ r hr
  have h := header_masked c
  simp only [opcodeTable, List.mem_cons, List.not_mem_nil, or_false] at hr
  rcases hr with rfl | rfl | rfl | rfl <;> simp [OpcodeRow.matchesCode, encode, Instr.mnemonic]
  exact h

theorem encode : Statement .encode := by unfold Statement; decide

theorem decode : Statement .decode := by unfold Statement; decide

end Sys2Proof.Laws.TableMatch
end

