-- ==== Sys2Proof/Tests/Slice0.lean ====
section
/-! SUPPORT. Tests: encodings written out from 30_encoding.md, the ill-formed terms that WellFormed refuses, one step of
each instruction with the values of 95_test_vectors.md, and for each statement a witness of its hypotheses. -/

namespace Sys2Proof.Tests

open Sys2Proof.Machine

/-! ### Helpers -/

/-- Does the outcome have a next state with this property? -/
def answers (r : Result) (p : State → Bool) : Bool :=
  match r with
  | .next s => p s
  | .fault _ => false
  | .refused _ => false

/-- Is the outcome this refusal? -/
def refuses (r : Result) (e : Refusal) : Bool :=
  match r with
  | .next _ => false
  | .fault _ => false
  | .refused x => decide (x = e)

/-- A DECODE under way with its tokens at 0x100. -/
def decoding (tlen dst cap rd wr : Word) (mem : Memory) : State :=
  { State.reset with
    status := Status.accepted, phase := .active, op := .dec
    latchAddr := 0x100, latchLen := tlen, latchDst := dst, latchCap := cap, rd := rd, wr := wr, mem := mem }

/-- An ENCODE under way with its buffer at 0x100. -/
def encoding (n rd wr : Word) (strict : Bool) (mem : Memory) : State :=
  { State.reset with
    status := Status.accepted, phase := .active, op := .enc
    latchAddr := 0x100, latchLen := n, latchStrict := strict, rd := rd, wr := wr, mem := mem }

/-- The same state with another configuration. -/
def withCfg (s : State) (c : Config) : State := { s with cfg := c }

/-- `RUN 5, 0x7F`, the stream of DEC-05, DEC-05b and DEC-05c. -/
def oneRun : Memory := [(0x100, 0x85#8), (0x101, 0x7F#8)]

/-- `{7,7,7,7,9}`, the input of RT-10. -/
def sevens : Memory := [(0x100, 7#8), (0x101, 7#8), (0x102, 7#8), (0x103, 7#8), (0x104, 9#8)]

/-- A state with the parameters of reset and an operation under way is legal if its memory and cursors are. -/
theorem legal {s : State} (hc : s.cfg = Config.standard) (hm : Memory.wf s.mem) (hi : ∀ c ∈ s.mem, c.1 < 0x1000)
    (hs : s.status = Status.accepted) (hp : s.phase = .active) (hk : s.cursorsLegal) : s.Inv where
  cfgLegal := by rw [hc]; decide
  memCanonical := hm
  memInside := by rw [hc]; exact hi
  addressesFit := by
    rw [hc]
    exact ⟨s.srcAddr.isLt, s.dstAddr.isLt, s.latchAddr.isLt, s.latchDst.isLt⟩
  busyActive := by rw [hs, hp]; decide
  busyDone := by rw [hs]; decide
  errAfterDone := by rw [hs]; decide
  cursors := fun _ => hk
  results := by rw [hs]; intro h; exact absurd h (by decide)

/-- The DECODE of DEC-05c (`RUN 5, 0x7F` with cap = 5), before its first step. -/
def decodeStart : State := decoding 2 0x400 5 0 0 oneRun

/-- The ENCODE of `{7,7,7,7,9}`, before its first step. -/
def encodeStart : State := encoding 5 0 0 false sevens

theorem decodeStart_legal : decodeStart.Inv :=
  legal rfl (by decide) (by decide) rfl rfl
    (show (0 ≤ 2 ∧ 0 ≤ 5 ∧ (0 = 0 → 0 = 0) ∧ (0 ≠ 0 → _)) from ⟨by decide, by decide, fun _ => rfl, fun h => absurd rfl h⟩)

theorem encodeStart_legal : encodeStart.Inv :=
  legal rfl (by decide) (by decide) rfl rfl
    (show (0 ≤ 5 ∧ 0 ≤ 0 ∧ (0 ≠ 0 → _)) from ⟨by decide, by decide, fun h => absurd rfl h⟩)

/-- A completion that changes RESULT: the ENCODE of no bytes after a RESULT of 7. -/
def completing : State := { encoding 0 0 0 false [] with result := 7 }

/-- A state after a completion, with a CMD write or a reset next. -/
def completed (m : HostMove) : State :=
  { State.reset with status := Status.completed .illegalCommand, op := .ill, result := 0xFFFFFFFF#32, schedule := [.host m] }

theorem completing_legal : completing.Inv :=
  legal rfl (by decide) (by decide) rfl rfl
    (show (0 ≤ 0 ∧ 0 ≤ 0 ∧ (0 ≠ 0 → _)) from ⟨by decide, by decide, fun h => absurd rfl h⟩)

theorem completed_legal (m : HostMove) : (completed m).Inv where
  cfgLegal := by show Config.standard.WF; decide
  memCanonical := by show Memory.wf []; decide
  memInside := by intro c hc; cases hc
  addressesFit := by show 0 < 2 ^ 32 ∧ 0 < 2 ^ 32 ∧ 0 < 2 ^ 32 ∧ 0 < 2 ^ 32; decide
  busyActive := by show false = true ↔ Phase.idle = Phase.active; decide
  busyDone := by show ¬(false = true ∧ true = true); decide
  errAfterDone := by intro h; cases h
  cursors := by intro h; cases h
  results := fun _ => ⟨rfl, rfl⟩

/-! ### Encodings -/

/-- R82: `01000001` is LIT 0x41. -/
theorem test_decode_lit : decodeTableWord 8 0b01000001 = some (.lit 0x41#8) := by decide

/-- R83: the bytes `10000011`, `01000001` are RUN 3, 65; the table numbers the second byte's bits from 8. -/
theorem test_decode_run : decodeTableWord 16 0b0100000110000011 = some (.run 3#7 65#8) := by decide

/-- R83, R84: count and value at their largest. -/
theorem test_decode_run_largest : decodeToken [0b11111111#8, 0b11111111#8] = .ok (.run 127#7 255#8, []) := by decide

/-- R90: command words. -/
theorem test_decode_commands :
    decodeTableWord 32 0x00000001 = some .encode ∧ decodeTableWord 32 0x00000002 = some .decode ∧
      decodeTableWord 32 0 = none ∧ decodeTableWord 32 3 = none ∧ decodeTableWord 32 0xFFFFFFFF = none := by decide

/-- P1: the tokens of `{0x83, 65, 66, 0x82, 67, 68, 0x83, 69}`. -/
theorem test_decode_stream :
    decodeStream [0x83#8, 65#8, 66#8, 0x82#8, 67#8, 68#8, 0x83#8, 69#8] =
      .ok [.run 3#7 65#8, .lit 66#8, .run 2#7 67#8, .lit 68#8, .run 3#7 69#8] := by decide

/-- The smoke test of WellFormed: a literal of 0x80 and above has no encoding (R82). -/
theorem test_illformed_literals :
    Instr.wellFormed (.lit 0x80#8) = false ∧ Instr.wellFormed (.lit 0xFF#8) = false ∧
      Instr.wellFormed (.lit 0x7F#8) = true := by decide

/-- No two rows of the opcode table of one space match the same bits. -/
theorem test_rows_disjoint :
    opcodeTable.Pairwise (fun r q => r.space ≠ q.space ∨ Nat.land r.pattern q.mask ≠ Nat.land q.pattern r.mask) := by
  decide

/-! ### Where the next step takes an instruction from -/

/-- Each row of the opcode table, placed by withFetchWord, is what the first step after reset runs. -/
theorem test_fetch_lit :
    answers (step (State.reset.withFetchWord 8 0x41)) (fun t =>
      decide (t.rd = 1 ∧ t.wr = 1 ∧ t.status = Status.accepted) && decide (Memory.readByte t.mem 2 = 0x41#8)) = true := by
  decide

theorem test_fetch_run :
    answers (step (State.reset.withFetchWord 16 0x4183)) (fun t =>
      decide (t.rd = 2 ∧ t.wr = 3) && decide (Memory.readBytes t.mem 1 5 = [0x41#8, 0x41#8, 0x41#8, 0x41#8, 0#8])) =
      true := by
  decide

theorem test_fetch_encode :
    answers (step (State.reset.withFetchWord 32 1)) (fun t => decide (t.op = .enc ∧ t.status.word = 1#32)) = true := by
  decide

theorem test_fetch_decode :
    answers (step (State.reset.withFetchWord 32 2)) (fun t => decide (t.op = .dec ∧ t.phase = .active)) = true := by
  decide

/-! ### One step of each instruction -/

/-- DEC-06, R140's example: tokens `{0x41}` with cap = 0 overflow, and no byte is written. -/
theorem test_lit_overflow :
    answers (step (decoding 1 0x400 0 0 0 [(0x100, 0x41#8)])) (fun t =>
      decide (t.status.word = 0x32#32 ∧ t.result = 0xFFFFFFFF#32 ∧ t.mem = [(0x100, 0x41#8)])) = true := by
  decide

/-- DEC-06b, R140's example with cap = 1: its token step. -/
theorem test_lit :
    answers (step (decoding 1 0x400 1 0 0 [(0x100, 0x41#8)])) (fun t =>
      decide (t.mem = [(0x100, 0x41#8), (0x400, 0x41#8)] ∧ t.rd = 1 ∧ t.wr = 1)) = true := by
  decide

/-- DEC-05, R141's example under RUN: `{0x85, 0x7F}` with cap = 4 overflows and writes nothing. -/
theorem test_run_overflow_run :
    answers (step (decoding 2 0x400 4 0 0 oneRun)) (fun t =>
      decide (t.status.word = 0x32#32 ∧ t.mem = oneRun ∧ t.wr = 0)) = true := by
  decide

/-- DEC-05b, R141's example under BYTE: the four bytes that fit are written. -/
theorem test_run_overflow_byte :
    answers (step (withCfg (decoding 2 0x400 4 0 0 oneRun) { Config.standard with decOvfCheck := .byte })) (fun t =>
      decide (t.status.word = 0x32#32 ∧ t.wr = 4) &&
        decide (Memory.readBytes t.mem 0x400 5 = [0x7F#8, 0x7F#8, 0x7F#8, 0x7F#8, 0#8])) = true := by
  decide

/-- RT-10's ENCODE: the first token step of `{7,7,7,7,9}` writes `{0x84, 7}` and consumes four bytes. -/
theorem test_encode_step :
    answers (step encodeStart) (fun t =>
      decide (Memory.readBytes t.mem 0x100 5 = [0x84#8, 7#8, 7#8, 7#8, 9#8] ∧ t.rd = 4 ∧ t.wr = 2)) = true := by
  decide

/-- P3, step 5 in small: STRICT = 1 rejects a lone 0xC0 and leaves M alone. -/
theorem test_encode_strict :
    answers (step (encoding 1 0 0 true [(0x100, 0xC0#8)])) (fun t =>
      decide (t.status.word = 0x42#32 ∧ t.result = 0 ∧ t.mem = [(0x100, 0xC0#8)])) = true := by
  decide

/-- DEC-05c: the token step writes five bytes, and the step after it would complete. -/
theorem test_decode_step :
    answers (step decodeStart) (fun t =>
      decide (Memory.readBytes t.mem 0x400 6 = [0x7F#8, 0x7F#8, 0x7F#8, 0x7F#8, 0x7F#8, 0#8] ∧ t.wr = 5) &&
        answers (step t) (fun u => decide (u.status.word = 0x02#32 ∧ u.result = 5))) = true := by
  decide

/-- CMD-04: the reserved command word 0. -/
theorem test_illegal_command :
    answers (step { State.reset with schedule := [.host (.regWrite 0x04 32 0)] }) (fun a =>
      answers (step a) (fun t => decide (t.status.word = 0x52#32 ∧ t.result = 0xFFFFFFFF#32))) = true := by
  decide

/-- CMD-06: reserved CTRL bits read 0. -/
theorem test_ctrl_reserved_bits :
    answers (step { State.reset with schedule := [.host (.regWrite 0x00 32 0xFFFFFFFF#32)] }) (fun t =>
      decide (readReg .ctrl t = 0x00000001#32)) = true := by
  decide

/-! ### Witnesses: for each statement with hypotheses, states and operands that meet them all -/

/-- A platform with the register window at 0x1000 and MEM_SIZE = 0x500. -/
def smallCfg : Config := { Config.standard with memSize := 0x500, regBase := 0x1000 }

/-- A command accepted and running, for the statements about BUSY = 1. -/
def busyState : State := State.reset.accept .enc

theorem witness_DecodeUndoesEncode :
    Instr.wellFormed (.lit 0x00#8) = true ∧ Instr.wellFormed (.lit 0x7F#8) = true ∧
      Instr.wellFormed (.run 0#7 0xFF#8) = true ∧ Instr.wellFormed (.run 127#7 0#8) = true ∧
      Instr.wellFormed .encode = true ∧ Instr.wellFormed .decode = true := by decide

theorem witness_StreamDecodeUndoesAssemble :
    ∀ i ∈ [Instr.lit 0x7F#8, .run 0#7 0xFF#8, .run 127#7 1#8], i.isToken = true ∧ i.wellFormed = true := by decide

theorem witness_EncodeUndoesDecode :
    decodeToken [0x7F#8] = .ok (.lit 0x7F#8, []) ∧ decodeToken [0x80#8, 0xFF#8] = .ok (.run 0#7 0xFF#8, []) ∧
      decodeStream [0x80#8, 0xFF#8, 0x7F#8] = .ok [.run 0#7 0xFF#8, .lit 0x7F#8] ∧
      decodeCommand 1#32 = .ok .encode ∧ decodeCommand 2#32 = .ok .decode := by decide

theorem witness_FirstByteDecidesToken :
    (0x7F#8).getLsbD 7 = false ∧ (0x80#8).getLsbD 7 = true ∧ (0xFF#8).getLsbD 7 = true := by decide

theorem witness_ResetSignalClearsBlock : State.reset.phase = .idle := rfl

theorem witness_ResetDuringOperationDrawsWriteRegion :
    (encodeStart.Inv ∧ encodeStart.phase = .active ∧ inRegion encodeStart.writeRegion 0xFF = false ∧
      4 < encodeStart.writeRegion.len ∧ encodeStart.op = .enc ∧ encodeStart.B + encodeStart.n ≤ encodeStart.cfg.memSize) ∧
    (decodeStart.Inv ∧ decodeStart.phase = .active ∧ inRegion decodeStart.writeRegion 0x405 = false ∧
      4 < decodeStart.writeRegion.len ∧ decodeStart.op = .dec ∧
      decodeStart.D + decodeStart.cap ≤ decodeStart.cfg.memSize) :=
  ⟨⟨encodeStart_legal, by decide⟩, ⟨decodeStart_legal, by decide⟩⟩

/-- Every offset of the window that the statement names, and the last one. -/
theorem witness_RegisterReadValues :
    ∀ off ∈ [0x00, 0x04, 0x08, 0x0C, 0x10, 0x14, 0x18, 0x1C, 0x20, 0x3C], off < 0x40 ∧ off % 4 = 0 := by decide

theorem witness_RegisterWriteEffects :
    ∀ off ∈ [0x00, 0x08, 0x0C, 0x10, 0x14, 0x18, 0x1C, 0x20, 0x3C], off < 0x40 ∧ off % 4 = 0 ∧ off ≠ 0x04 := by decide

/-- The first reserved bit above ERR; DEC-05's STATUS. -/
theorem witness_StatusWordLayout : 8 ≤ 8 ∧ (Status.completed .outputOverflow).word = 0x32#32 := by decide

theorem witness_OddRegisterAccessRefused :
    (smallCfg.regBase ≤ 0x1000 ∧ 0x1000 < smallCfg.regBase + 0x40 ∧ (16 ≠ 32 ∨ (0x1000 - smallCfg.regBase) % 4 ≠ 0)) ∧
    (smallCfg.regBase ≤ 0x103F ∧ 0x103F < smallCfg.regBase + 0x40 ∧ (32 ≠ 32 ∨ (0x103F - smallCfg.regBase) % 4 ≠ 0)) ∧
    (0xFFF < smallCfg.regBase ∨ smallCfg.regBase + 0x40 ≤ 0xFFF) ∧
    (0x1040 < smallCfg.regBase ∨ smallCfg.regBase + 0x40 ≤ 0x1040) := by decide

theorem witness_CommandWhileBusyIgnored : busyState.status.busy = true := rfl

theorem witness_CommandAcceptance :
    busyState.status.busy = true ∧ State.reset.status.busy = false ∧ (1#32).toNat = 1 ∧ (2#32).toNat = 2 ∧ (3#32).toNat ≠ 1 ∧ (3#32).toNat ≠ 2 := by
  decide

theorem witness_CommandFrame :
    exec .encode State.reset = .next (State.reset.accept .enc) ∧ exec .decode State.reset = .next (State.reset.accept .dec) ∧
      exec .encode busyState = .next busyState := ⟨rfl, rfl, rfl⟩

theorem witness_StepTakesNextTurn :
    State.reset.schedule = [] ∧ (State.reset.setSchedule [.engine]).schedule = .engine :: [] ∧
      (State.reset.setSchedule [.host .reset]).schedule = .host .reset :: [] ∧
      (State.reset.setSchedule [.poll, .engine]).schedule = .poll :: [.engine] := by decide

theorem witness_StepRunsFetchedToken :
    (decodeStart.phase = .active ∧ decodeStart.op = .dec ∧ decodeStart.verdict = .proceed ∧
      decodeStart.rdN < decodeStart.tlen ∧ decodeStart.T + decodeStart.tlen ≤ decodeStart.cfg.memSize ∧
      decodeStart.schedule = []) ∧
    decodeToken (Memory.readBytes decodeStart.mem (decodeStart.T + decodeStart.rdN)
      (min 2 (decodeStart.tlen - decodeStart.rdN))) = .ok (.run 5#7 0x7F#8, []) ∧
    (decodeStart.setSchedule [.engine]).verdict = .proceed := by decide

theorem witness_StepRunsCommandWord :
    (State.reset.setSchedule [.host (.regWrite (State.reset.cfg.regBase + 0x04) 32 2)]).schedule =
      .host (.regWrite (State.reset.cfg.regBase + 0x04) 32 2#32) :: [] ∧ decodeCommand 2#32 = .ok .decode := by decide

/-- wr = cap − 1 (the last byte that fits, at the top of M) and wr = cap. -/
theorem witness_LitExecutes :
    let s := decoding 4 0xFFE 2 1 1 oneRun
    let full := decoding 4 0xFFE 2 2 2 oneRun
    (s.op = .dec ∧ Memory.wf s.mem ∧ s.D + s.cap ≤ s.cfg.memSize ∧ s.wrN + 1 ≤ s.cap ∧ s.rdN + 1 < 2 ^ 32) ∧
    (full.op = .dec ∧ Memory.wf full.mem ∧ full.D + full.cap ≤ full.cfg.memSize ∧ full.cap < full.wrN + 1) := by decide

/-- A header that is the last byte; a run that just fits; a run of one byte too many, under RUN and under BYTE. -/
theorem witness_RunExecutes :
    let last := decoding 1 0xFFB 5 0 0 oneRun
    let fits := decoding 2 0xFFB 5 0 0 oneRun
    let wide := decoding 2 0xFFC 4 0 0 oneRun
    let wideByte := withCfg wide { Config.standard with decOvfCheck := .byte }
    (last.op = .dec ∧ Memory.wf last.mem ∧ last.D + last.cap ≤ last.cfg.memSize ∧ last.wrN ≤ last.cap ∧
      last.tlen ≤ last.rdN + 1) ∧
    (fits.op = .dec ∧ Memory.wf fits.mem ∧ fits.D + fits.cap ≤ fits.cfg.memSize ∧ fits.wrN ≤ fits.cap ∧
      fits.rdN + 1 < fits.tlen ∧ fits.wrN + (5#7).toNat ≤ fits.cap) ∧
    (wide.op = .dec ∧ wide.D + wide.cap ≤ wide.cfg.memSize ∧ wide.wrN ≤ wide.cap ∧
      wide.rdN + 1 < wide.tlen ∧ wide.cap < wide.wrN + (5#7).toNat ∧ wide.cfg.decOvfCheck = .run) ∧
    (wideByte.op = .dec ∧ wideByte.D + wideByte.cap ≤ wideByte.cfg.memSize ∧ wideByte.wrN ≤ wideByte.cap ∧
      wideByte.rdN + 1 < wideByte.tlen ∧ wideByte.cap < wideByte.wrN + (5#7).toNat ∧ wideByte.cfg.decOvfCheck = .byte) := by
  decide

theorem witness_TokenFrame :
    Instr.isToken (.lit 0x41#8) = true ∧ Instr.isToken (.run 5#7 0x7F#8) = true ∧ Memory.wf decodeStart.mem ∧
      answers (exec (.lit 0x41#8) decodeStart) (fun t => decide (t.wr = 1)) = true ∧
      answers (exec (.run 5#7 0x7F#8) decodeStart) (fun t => decide (t.wr = 5)) = true := by decide

theorem witness_TruncatedHeaderFails :
    let s := decoding 1 0x400 5 0 0 oneRun
    s.phase = .active ∧ s.op = .dec ∧ s.verdict = .proceed ∧ s.rdN + 1 = s.tlen ∧ s.T + s.tlen ≤ s.cfg.memSize ∧
      0x80 ≤ (Memory.readByte s.mem (s.T + s.rdN)).toNat := by decide

/-- One byte in common: the output begins at the last token byte. -/
theorem witness_OverlappingDecodeRefused :
    let s := decoding 2 0x101 5 0 0 oneRun
    s.phase = .active ∧ s.op = .dec ∧ s.rdN = 0 ∧ s.tlen ≠ 0 ∧ s.T + s.tlen ≤ s.cfg.memSize ∧
      s.D + s.cap ≤ s.cfg.memSize ∧ ((s.T ≤ 0x101 ∧ 0x101 < s.T + s.tlen) ∧ (s.D ≤ 0x101 ∧ 0x101 < s.D + s.cap)) ∧
      refuses (engineStep s) .overlappingRegions = true := by decide

theorem witness_IllegalCommandFails :
    State.reset.status.busy = false ∧ ((0#32).toNat ≠ 1 ∧ (0#32).toNat ≠ 2) ∧ ((3#32).toNat ≠ 1 ∧ (3#32).toNat ≠ 2) ∧
      ((0x101#32).toNat ≠ 1 ∧ (0x101#32).toNat ≠ 2) := by decide

/-- n = 0, and a buffer that ends one byte above M. -/
theorem witness_EncodeInvalidArgument :
    let empty := encoding 0 0 0 false []
    let long := encoding 0xF01 0 0 false []
    (empty.phase = .active ∧ empty.op = .enc ∧ empty.rdN = 0 ∧ empty.n = 0) ∧
    (long.phase = .active ∧ long.op = .enc ∧ long.rdN = 0 ∧ long.cfg.memSize < long.B + long.n) := by decide

/-- tlen = 0; tokens that end one byte above M; an output that does. -/
theorem witness_DecodeInvalidArgument :
    let empty := decoding 0 0x400 5 0 0 []
    let long := decoding 0xF01 0x400 5 0 0 []
    let wide := decoding 2 0xFFF 2 0 0 oneRun
    (empty.phase = .active ∧ empty.op = .dec ∧ empty.rdN = 0 ∧ empty.tlen = 0) ∧
    (long.phase = .active ∧ long.op = .dec ∧ long.rdN = 0 ∧ long.cfg.memSize < long.T + long.tlen) ∧
    (wide.phase = .active ∧ wide.op = .dec ∧ wide.rdN = 0 ∧ wide.cfg.memSize < wide.D + wide.cap) := by decide

/-- STRICT = 0; a lone 0x80 and a lone 0x7F under LITERAL; a run of 0x80 and a lone 0x7F under ALL. -/
theorem witness_StrictCheckRejects :
    let all := { Config.standard with strictScope := .all }
    let off := encoding 1 0 0 false [(0x100, 0x80#8)]
    let bad := encoding 1 0 0 true [(0x100, 0x80#8)]
    let good := encoding 1 0 0 true [(0x100, 0x7F#8)]
    let badAll := withCfg (encoding 2 0 0 true [(0x100, 0x80#8), (0x101, 0x80#8)]) all
    let goodAll := withCfg good all
    (off.phase = .active ∧ off.op = .enc ∧ off.rdN = 0 ∧ off.encodeArgsOk = true ∧ hasDevice off.cfg off.buffer = false ∧
      off.latchStrict = false) ∧
    (bad.encodeArgsOk = true ∧ hasDevice bad.cfg bad.buffer = false ∧ bad.latchStrict = true ∧
      bad.cfg.strictScope = .literal ∧ Emission.lit 0x80#8 ∈ emissions (Memory.readBytes bad.mem bad.B bad.n)) ∧
    (good.encodeArgsOk = true ∧ hasDevice good.cfg good.buffer = false ∧ good.latchStrict = true ∧
      emissions (Memory.readBytes good.mem good.B good.n) = [Emission.lit 0x7F#8]) ∧
    (badAll.encodeArgsOk = true ∧ hasDevice badAll.cfg badAll.buffer = false ∧ badAll.latchStrict = true ∧
      badAll.cfg.strictScope = .all ∧ ∃ v ∈ Memory.readBytes badAll.mem badAll.B badAll.n, 0x80 ≤ v.toNat) ∧
    (goodAll.encodeArgsOk = true ∧ goodAll.latchStrict = true ∧ goodAll.cfg.strictScope = .all ∧
      ∀ v ∈ Memory.readBytes goodAll.mem goodAll.B goodAll.n, v.toNat < 0x80) := by decide

theorem witness_ConsumedInputCompletes :
    let e := encoding 5 5 3 false sevens
    let d := decoding 2 0x400 5 2 5 oneRun
    (e.phase = .active ∧ e.rdN ≠ 0 ∧ e.rdN = e.latchLen.toNat ∧ (e.op = .enc ∨ e.op = .dec)) ∧
    (d.phase = .active ∧ d.rdN ≠ 0 ∧ d.rdN = d.latchLen.toNat ∧ (d.op = .enc ∨ d.op = .dec)) := by decide

/-- A failure (n = 0) and a success (the last step of `{7,7,7,7,9}`), each from a legal state. -/
theorem witness_EncodeResultZeroIffFailed :
    let e := encoding 5 5 3 false sevens
    (completing.Inv ∧ completing.phase = .active ∧ completing.op = .enc ∧
      answers (engineStep completing) (fun t => decide (t.phase = .idle ∧ t.status.err ≠ .noError)) = true) ∧
    (e.Inv ∧ e.phase = .active ∧ e.op = .enc ∧
      answers (engineStep e) (fun t => decide (t.phase = .idle ∧ t.status.err = .noError ∧ t.result = 3)) = true) :=
  ⟨⟨completing_legal, by decide⟩,
    ⟨legal rfl (by decide) (by decide) rfl rfl (show (5 ≤ 5 ∧ 3 ≤ 5 ∧ (5 ≠ 0 → _)) from
      ⟨by decide, by decide, fun _ => ⟨by decide, by decide, by decide⟩⟩), by decide⟩⟩

/-- k = 1, the last byte of the input; and a run cut short by a different byte. -/
theorem witness_RunLengthIsLargest :
    (0 < 1 ∧ 0 < runlen sevens 0x104 1) ∧ (0 < 5 ∧ 3 < runlen sevens 0x100 5) ∧ 4 ≤ min 127 5 := by decide

/-- The token step on the run of four 7s (c = 4), and the one on the last 9 (c = 1). -/
theorem witness_EncodeTokenStepEmits :
    let s := encodeStart
    let t := encoding 5 4 2 false sevens
    (s.phase = .active ∧ s.op = .enc ∧ s.verdict = .proceed ∧ s.rdN < s.n ∧ s.wrN ≤ s.rdN ∧
      s.B + s.n ≤ s.cfg.memSize ∧ Memory.wf s.mem ∧ 7#8 = Memory.readByte s.mem (s.B + s.rdN) ∧
      4 = runlen s.mem (s.B + s.rdN) (s.n - s.rdN)) ∧
    (t.phase = .active ∧ t.op = .enc ∧ t.verdict = .proceed ∧ t.rdN < t.n ∧ t.wrN ≤ t.rdN ∧
      t.B + t.n ≤ t.cfg.memSize ∧ 9#8 = Memory.readByte t.mem (t.B + t.rdN) ∧
      1 = runlen t.mem (t.B + t.rdN) (t.n - t.rdN)) := by decide

theorem witness_EncodeInPlaceSafe :
    encodeStart.Inv ∧ encodeStart.phase = .active ∧ encodeStart.op = .enc ∧
      answers (engineStep encodeStart) (fun t => decide (t.phase = .active)) = true :=
  ⟨encodeStart_legal, by decide⟩

/-- The premise is met by states that run an operation, and their step has a next state. -/
theorem witness_StepKeepsLegal :
    (encodeStart.Inv ∧ answers (step encodeStart) (fun _ => true) = true) ∧
      (decodeStart.Inv ∧ answers (step decodeStart) (fun _ => true) = true) :=
  ⟨⟨encodeStart_legal, by decide⟩, ⟨decodeStart_legal, by decide⟩⟩

/-- A legal DECODE that is refused: its regions overlap. -/
theorem witness_EngineNeverLeavesMemory :
    decodeStart.Inv ∧ encodeStart.Inv ∧ (decoding 2 0x101 5 0 0 oneRun).Inv ∧
      refuses (engineStep (decoding 2 0x101 5 0 0 oneRun)) .overlappingRegions = true :=
  ⟨decodeStart_legal, encodeStart_legal,
    legal rfl (by decide) (by decide) rfl rfl
      (show (0 ≤ 2 ∧ 0 ≤ 5 ∧ (0 = 0 → 0 = 0) ∧ (0 ≠ 0 → _)) from
        ⟨by decide, by decide, fun _ => rfl, fun h => absurd rfl h⟩),
    by decide⟩

/-- Both operations change a byte: the header at 0x100, the last output byte at 0x404. -/
theorem witness_EngineFootprint :
    (encodeStart.Inv ∧ answers (engineStep encodeStart) (fun t =>
      decide (Memory.readByte t.mem 0x100 ≠ Memory.readByte encodeStart.mem 0x100)) = true) ∧
    (decodeStart.Inv ∧ answers (engineStep decodeStart) (fun t =>
      decide (Memory.readByte t.mem 0x404 ≠ Memory.readByte decodeStart.mem 0x404)) = true) :=
  ⟨⟨encodeStart_legal, by decide⟩, ⟨decodeStart_legal, by decide⟩⟩

theorem witness_CursorsAdvance :
    (encodeStart.Inv ∧ encodeStart.phase = .active ∧
      answers (engineStep encodeStart) (fun t => decide (t.phase = .active)) = true) ∧
    (decodeStart.Inv ∧ decodeStart.phase = .active ∧
      answers (engineStep decodeStart) (fun t => decide (t.phase = .active)) = true) :=
  ⟨⟨encodeStart_legal, by decide⟩, ⟨decodeStart_legal, by decide⟩⟩

theorem witness_StatusAndResultChangeOnlySo :
    (completing.Inv ∧ answers (step completing) (fun t => decide (t.result ≠ completing.result)) = true) ∧
    ((completed .reset).Inv ∧ answers (step (completed .reset)) (fun t =>
      decide (t.result ≠ (completed .reset).result ∧ (completed .reset).status.done = true ∧ t.status.done = false)) =
      true) ∧
    ((completed (.regWrite 0x04 32 1)).Inv ∧ answers (step (completed (.regWrite 0x04 32 1))) (fun t =>
      decide ((completed (.regWrite 0x04 32 1)).status.busy = false ∧ t.status.busy = true ∧ t.status.done = false)) =
      true) ∧
    (completing.status.busy = true ∧ answers (step completing) (fun t => decide (t.status.busy = false)) = true) ∧
    (completing.status.done = false ∧ answers (step completing) (fun t =>
      decide (t.status.done = true ∧ t.status.err ≠ completing.status.err)) = true) ∧
    (answers (step (completed .reset)) (fun t => decide (t.status.err ≠ (completed .reset).status.err)) = true ∧
      answers (step (completed (.regWrite 0x04 32 1))) (fun t =>
        decide (t.status.err ≠ (completed (.regWrite 0x04 32 1)).status.err)) = true) :=
  ⟨⟨completing_legal, by decide⟩, ⟨completed_legal _, by decide⟩, ⟨completed_legal _, by decide⟩, by decide, by decide,
    by decide⟩

/-- The host's state before RT-10's two commands: `{7,7,7,7,9}` at 0x100. -/
def beforeEncode : State := { State.reset with srcAddr := 0x100, srcLen := 5, mem := sevens }

/-- The host's state before DEC-05c. -/
def beforeDecode : State := { State.reset with srcAddr := 0x100, srcLen := 2, dstAddr := 0x400, dstCap := 5, mem := oneRun }

/-- ENC's input of RT-10 and its three tokens bytes. -/
theorem witness_EncodeFunctionalForm :
    beforeEncode.status.busy = false ∧ beforeEncode.schedule = [] ∧ Memory.wf beforeEncode.mem ∧
      (beforeEncode.accept .enc).encodeChecks = .proceed ∧
      [7#8, 7#8, 7#8, 7#8, 9#8] =
        Memory.readBytes beforeEncode.mem beforeEncode.srcAddr.toNat beforeEncode.srcLen.toNat ∧
      enc [7#8, 7#8, 7#8, 7#8, 9#8] = [0x84#8, 7#8, 9#8] := by decide

/-- A success (cap = 5) and a failure (cap = 4). -/
theorem witness_DecodeFunctionalForm :
    let short := { beforeDecode with dstCap := 4 }
    (beforeDecode.status.busy = false ∧ beforeDecode.schedule = [] ∧ Memory.wf beforeDecode.mem ∧
      (beforeDecode.accept .dec).decodeChecks = .proceed ∧
      [0x85#8, 0x7F#8] = Memory.readBytes beforeDecode.mem beforeDecode.srcAddr.toNat beforeDecode.srcLen.toNat ∧
      (ErrCode.noError, List.replicate 5 0x7F#8) =
        dec beforeDecode.cfg.decOvfCheck beforeDecode.dstCap.toNat [0x85#8, 0x7F#8]) ∧
    (short.status.busy = false ∧ short.schedule = [] ∧ Memory.wf short.mem ∧
      (short.accept .dec).decodeChecks = .proceed ∧
      (ErrCode.outputOverflow, []) = dec short.cfg.decOvfCheck short.dstCap.toNat [0x85#8, 0x7F#8]) := by decide

/-- No two adjacent equal bytes; and a run token of count 2 (ENC-04), which keeps the length. -/
theorem witness_EncodeLengthLaw :
    (∀ i, i + 1 < [1#8, 2#8, 1#8].length → [1#8, 2#8, 1#8].getD i 0 ≠ [1#8, 2#8, 1#8].getD (i + 1) 0) ∧
      emissions [5#8, 5#8] = [Emission.run 2 5#8] ∧ enc [5#8, 5#8] = [0x82#8, 5#8] := by
  refine ⟨fun i hi => ?_, by decide⟩
  have h : i < 2 := by simp at hi; omega
  interval_cases i <;> decide

/-- A maximal run between a different byte and the end of the input. -/
theorem witness_RunSplitting : 0 < 128 ∧ [1#8].getLast? ≠ some 2#8 ∧ ([] : List Byte).head? ≠ some 2#8 := by decide

theorem witness_RoundTripOnSequences :
    [7#8, 7#8, 7#8, 7#8, 9#8].length ≤ 5 ∧
      (∀ v, Emission.lit v ∈ emissions [7#8, 7#8, 7#8, 7#8, 9#8] → v.toNat < 0x80) := by
  have h : emissions [7#8, 7#8, 7#8, 7#8, 9#8] = [Emission.run 4 7#8, Emission.lit 9#8] := by decide
  rw [h]
  exact ⟨by decide, fun v hv => by simp at hv; subst hv; decide⟩

/-- RT-10's input with cap = n, output just below the buffer. -/
theorem witness_RoundTripOnMachine :
    beforeEncode.status.busy = false ∧ beforeEncode.schedule = [] ∧ Memory.wf beforeEncode.mem ∧
      hasDevice beforeEncode.cfg { base := beforeEncode.srcAddr.toNat, len := beforeEncode.srcLen.toNat } = false ∧
      hasDevice beforeEncode.cfg { base := (0xFB#32).toNat, len := (5#32).toNat } = false ∧
      0 < beforeEncode.srcLen.toNat ∧ beforeEncode.srcAddr.toNat + beforeEncode.srcLen.toNat ≤ beforeEncode.cfg.memSize ∧
      (∀ i, i < beforeEncode.srcLen.toNat →
        (Memory.readByte beforeEncode.mem (beforeEncode.srcAddr.toNat + i)).toNat ≤ 0x7F) ∧
      beforeEncode.srcLen.toNat ≤ (5#32).toNat ∧ (0xFB#32).toNat + (5#32).toNat ≤ beforeEncode.cfg.memSize ∧
      ((0xFB#32).toNat + (5#32).toNat ≤ beforeEncode.srcAddr.toNat ∨
        beforeEncode.srcAddr.toNat + beforeEncode.srcLen.toNat ≤ (0xFB#32).toNat) := by decide

/-- RT-04 and RT-05: `{0x90}`, and `{0x85, 0x41}` with cap = 5; an out-of-domain literal as the last token, after a run;
one before a run token, with cap just enough; and one between tokens, with cap just enough for it and for all. -/
theorem witness_OutOfDomainLiterals :
    0x80 ≤ (0x90#8).toNat ∧ 0x80 ≤ (0x85#8).toNat ∧ (0x41#8 : Byte) ≠ 0x85#8 ∧ (0x85#8).toNat % 128 ≤ 5 ∧
      emissions [1#8, 1#8, 0x90#8] = [Emission.run 2 1#8] ++ [Emission.lit 0x90#8] ∧ [1#8, 1#8, 0x90#8].length ≤ 3 ∧
      (emissions [0x85#8, 1#8, 1#8] = [] ++ Emission.lit 0x85#8 :: .run 2 1#8 :: [] ∧
        (Emission.run 2 1#8).bytes = 0x82#8 :: [1#8] ∧ 0 + (0x85#8).toNat % 128 ≤ 5 ∧ 0x80 < (0x85#8).toNat) ∧
      (emissions [1#8, 1#8, 0x81#8, 2#8, 3#8] = [Emission.run 2 1#8] ++ Emission.lit 0x81#8 :: .lit 2#8 :: [.lit 3#8] ∧
        (Emission.lit 2#8).bytes = 2#8 :: [] ∧ [3#8] = [] ++ [Emission.lit 3#8].flatMap Emission.bytes ∧
        2 = ([Emission.run 2 1#8].map Emission.count).sum ∧ 2 + (0x81#8).toNat % 128 ≤ 3 ∧ 0x80 < (0x81#8).toNat ∧
        decodeStream [3#8] = .ok [.lit 3#8] ∧ 2 + (0x81#8).toNat % 128 + ([Instr.lit 3#8].map outputCount).sum ≤ 4) := by
  decide

theorem witness_DecodeSuccessCondition :
    decodeStream [0x80#8, 0x33#8, 0x41#8] = .ok [.run 0#7 0x33#8, .lit 0x41#8] ∧
      ([Instr.run 0#7 0x33#8, .lit 0x41#8].map outputCount).sum ≤ 1 ∧
      (dec .run 0 [0x41#8, 0x85#8]).1 = .outputOverflow ∧ (dec .run 5 [0x85#8]).1 ≠ .outputOverflow ∧
      (∀ i ∈ [Instr.lit 0x41#8], i.isToken = true ∧ i.wellFormed = true) ∧ (0x85#8).getLsbD 7 = true ∧
      [0x41#8, 0x85#8] = assemble [Instr.lit 0x41#8] ++ [0x85#8] := by decide

theorem witness_EncodedStreamIsCanonical :
    (∀ v, Emission.lit v ∈ emissions [7#8, 7#8, 9#8] → v.toNat < 0x80) ∧
      decodeStream (enc [7#8, 7#8, 9#8]) = .ok ([] ++ Instr.run 2#7 7#8 :: .lit 9#8 :: []) ∧ (2#7).toNat < 127 := by
  have h : emissions [7#8, 7#8, 9#8] = [Emission.run 2 7#8, Emission.lit 9#8] := by decide
  rw [h]
  exact ⟨fun v hv => by simp at hv; subst hv; decide, by decide⟩

theorem witness_OperationsTerminate :
    (encodeStart.Inv ∧ encodeStart.phase = .active ∧ encodeStart.schedule = []) ∧
      (decodeStart.Inv ∧ decodeStart.phase = .active ∧ decodeStart.schedule = []) :=
  ⟨⟨encodeStart_legal, by decide⟩, ⟨decodeStart_legal, by decide⟩⟩

theorem witness_PollTerminates :
    let s := { decodeStart with schedule := [.poll, .host (.regRead 0x1C 32)] }
    s.Inv ∧ s.phase = .active ∧ s.schedule = .poll :: [.host (.regRead 0x1C 32)] :=
  ⟨legal rfl (by decide) (by decide) rfl rfl
    (show (0 ≤ 2 ∧ 0 ≤ 5 ∧ (0 = 0 → 0 = 0) ∧ (0 ≠ 0 → _)) from
      ⟨by decide, by decide, fun _ => rfl, fun h => absurd rfl h⟩), rfl, rfl⟩

/-- An idle block about to accept a command. -/
theorem witness_IdleLatchesUnread :
    let s := { State.reset with schedule := [.host (.regWrite 0x04 32 1)] }
    s.phase = .idle ∧ s.status.busy = false ∧ answers (step s) (fun t => decide (t.phase = .active)) = true := by decide

/-- The byte just above the output region, and the byte just below the buffer. -/
theorem witness_HostWriteElsewhereCommutes :
    (decodeStart.Inv ∧ decodeStart.phase = .active ∧ decodeStart.mayTouch 0x405 = false) ∧
      (encodeStart.Inv ∧ encodeStart.phase = .active ∧ encodeStart.mayTouch 0xFF = false) :=
  ⟨⟨decodeStart_legal, by decide⟩, ⟨encodeStart_legal, by decide⟩⟩

/-- The first byte of the buffer, the last token byte and the last output byte. -/
theorem witness_RacingAccessRefused :
    let e := encodeStart
    let d := decodeStart
    (e.phase = .active ∧ 0x100 < e.cfg.memSize ∧ (∀ r ∈ e.cfg.devices, inRegion r 0x100 = false) ∧ e.op = .enc ∧
      e.n ≠ 0 ∧ e.B + e.n ≤ e.cfg.memSize ∧ e.B ≤ 0x100 ∧ 0x100 < e.B + e.n) ∧
    (d.phase = .active ∧ 0x101 < d.cfg.memSize ∧ (∀ r ∈ d.cfg.devices, inRegion r 0x101 = false) ∧ d.op = .dec ∧
      d.tlen ≠ 0 ∧ d.T + d.tlen ≤ d.cfg.memSize ∧ d.D + d.cap ≤ d.cfg.memSize ∧
      (d.T ≤ 0x101 ∧ 0x101 < d.T + d.tlen) ∧ (d.D ≤ 0x404 ∧ 0x404 < d.D + d.cap)) := by decide

/-- The first address that does not exist; the last one that does. -/
theorem witness_HostMemoryAccess :
    let s := withCfg State.reset smallCfg
    Memory.wf s.mem ∧ s.cfg.memSize ≤ 0x500 ∧ 0x4FF < s.cfg.memSize ∧
      (∀ r ∈ s.cfg.devices, inRegion r 0x4FF = false) ∧ s.mayTouch 0x4FF = false := by decide

end Sys2Proof.Tests
end

section
/-! SUPPORT. What `step` does at each head of the schedule, and the two ways a round of POLL can go. -/

namespace Sys2Proof.Machine

theorem step_of_schedule_nil {s : State} (h : s.schedule = []) : step s = engineStep s := by
  simp only [step, h]

theorem step_of_engine_turn {s : State} {rest : List Turn} (h : s.schedule = .engine :: rest) :
    step s = engineStep (s.setSchedule rest) := by
  simp only [step, h]

theorem step_of_host_turn {s : State} {m : HostMove} {rest : List Turn} (h : s.schedule = .host m :: rest) :
    step s = hostStep m (s.setSchedule rest) := by
  simp only [step, h]

theorem step_of_poll_turn {s : State} {rest : List Turn} (h : s.schedule = .poll :: rest) :
    step s = pollStep rest s := by
  simp only [step, h]

/-- POLL ends in the round that reads DONE = 1 (R93): the word read is observed and the turn is used up. -/
theorem pollStep_of_done {s : State} (rest : List Turn) (h : s.status.done = true) :
    pollStep rest s = .next ((s.observe (.word s.status.word)).setSchedule rest) := by
  simp only [pollStep, h, if_true]

/-- POLL goes round again while DONE = 0 (R93): the engine moves, and the schedule still begins with POLL. -/
theorem pollStep_of_not_done {s : State} (rest : List Turn) (h : s.status.done = false) :
    pollStep rest s = engineStep (s.observe (.word s.status.word)) := by
  simp only [pollStep, h, Bool.false_eq_true, if_false]

/-- Settles O18, one law of `step` per head of the schedule; a round of POLL is split on the DONE bit it reads. -/
theorem stepTakesNextTurn : Obligations.StepTakesNextTurn := by
  intro s rest
  refine ⟨step_of_schedule_nil, step_of_engine_turn, fun m => step_of_host_turn, fun hpoll => ?_⟩
  rw [step_of_poll_turn hpoll]
  split
  case isTrue hdone => exact pollStep_of_done rest hdone
  case isFalse hrunning => exact pollStep_of_not_done rest (Bool.eq_false_of_not_eq_true hrunning)

end Sys2Proof.Machine
end

section
/-! SUPPORT. The inversion lemmas of the host's port and of the step: a host move that is answered with a next state had
one of the effects of HostEffect, and a step was one of the moves of StepMove. -/

namespace Sys2Proof.Machine

/-- What a host move that goes through does to the state (R20–R28, R71, R92, R200). -/
inductive HostEffect (s : State) : HostMove → State → Prop where
  /-- a read, of a register or of a byte, changes only what the host has observed -/
  | observes (m : HostMove) (o : Observation) : HostEffect s m (s.observe o)
  /-- a write to STATUS, RESULT or a reserved offset is ignored -/
  | ignores (m : HostMove) : HostEffect s m s
  | setsCtrl (m : HostMove) (b : Bool) : HostEffect s m (s.setCtrlStrict b)
  | setsSrcAddr (m : HostMove) (w : Word) : HostEffect s m (s.setSrcAddr (addrBits s.cfg w))
  | setsSrcLen (m : HostMove) (w : Word) : HostEffect s m (s.setSrcLen w)
  | setsDstAddr (m : HostMove) (w : Word) : HostEffect s m (s.setDstAddr (addrBits s.cfg w))
  | setsDstCap (m : HostMove) (w : Word) : HostEffect s m (s.setDstCap w)
  /-- a write to CMD, whatever the word -/
  | commands (w : Word) (op : Op) : HostEffect s (.regWrite (s.cfg.regBase + 0x04) 32 w) (s.command op)
  /-- a byte written to M, where M exists -/
  | stores (a : Nat) (v : Byte) (hin : a < s.cfg.memSize) :
      HostEffect s (.memWrite a v) (s.setMem (Memory.writeByte s.mem a v))
  | resets : HostEffect s .reset s.resetBlock

/-- A register access that goes through is an aligned 32-bit one inside the window (R26, R28). -/
theorem regAccess_eq_ok {c : Config} {addr width : Nat} {r : Reg} (h : regAccess c addr width = .ok r) :
    ∃ off, off < 0x40 ∧ off % 4 = 0 ∧ addr = c.regBase + off ∧ width = 32 ∧ r = regAt off := by
  unfold regAccess windowSize at h
  split at h
  case isTrue => cases h
  case isFalse hin =>
    split at h
    case isTrue => cases h
    case isFalse hal =>
      cases h
      exact ⟨addr - c.regBase, by omega, by omega, by omega, by omega, rfl⟩

/-- CMD is the register at offset 0x04 alone (R20, R22). -/
theorem eq_four_of_regAt_cmd {off : Nat} (h : regAt off = .cmd) : off = 0x04 := by
  by_contra hne
  unfold regAt at h
  rw [if_neg hne] at h
  split_ifs at h

theorem hostStep_memWrite (a : Nat) (v : Byte) (s : State) :
    hostStep (.memWrite a v) s = hostAccess a s fun t => .next (t.setMem (Memory.writeByte t.mem a v)) := rfl

theorem hostStep_memRead (a : Nat) (s : State) :
    hostStep (.memRead a) s = hostAccess a s fun t => .next (t.observe (.byte (Memory.readByte t.mem a))) := rfl

/-- A host access to M that goes through has reached a byte that exists. -/
theorem hostAccess_eq_next {a : Nat} {s t : State} {go : State → Result} (h : hostAccess a s go = .next t) :
    a < s.cfg.memSize ∧ go s = .next t := by
  unfold hostAccess at h
  split_ifs at h with hout
  exact ⟨by omega, h⟩

theorem writeReg_effect {s t : State} {r : Reg} {addr : Nat} {w : Word} (hr : r = .cmd → addr = s.cfg.regBase + 0x04)
    (h : writeReg r w s = .next t) : HostEffect s (.regWrite addr 32 w) t := by
  cases r with
  | cmd =>
    rw [hr rfl]
    simp only [writeReg, commandWrite_eq] at h
    cases h
    exact .commands w _
  | ctrl => cases h; exact .setsCtrl _ _
  | srcAddr => cases h; exact .setsSrcAddr _ _
  | srcLen => cases h; exact .setsSrcLen _ _
  | dstAddr => cases h; exact .setsDstAddr _ _
  | dstCap => cases h; exact .setsDstCap _ _
  | status => cases h; exact .ignores _
  | result => cases h; exact .ignores _
  | reserved => cases h; exact .ignores _

/-- Everything a host move that is answered with a next state can have done. -/
theorem hostStep_effect {m : HostMove} {s t : State} (h : hostStep m s = .next t) : HostEffect s m t := by
  cases m with
  | regWrite addr width w =>
    cases hr : regAccess s.cfg addr width with
    | error e => simp [hostStep, hr] at h
    | ok r =>
      simp only [hostStep, hr] at h
      obtain ⟨off, -, -, rfl, rfl, hoff⟩ := regAccess_eq_ok hr
      exact writeReg_effect (fun hcmd => by rw [eq_four_of_regAt_cmd (hoff.symm.trans hcmd)]) h
  | regRead addr width =>
    cases hr : regAccess s.cfg addr width with
    | error e => simp [hostStep, hr] at h
    | ok r =>
      simp only [hostStep, hr] at h
      cases h
      exact .observes _ _
  | memWrite a v =>
    obtain ⟨hin, hgo⟩ := hostAccess_eq_next (hostStep_memWrite a v s ▸ h)
    cases hgo
    exact .stores a v hin
  | memRead a =>
    obtain ⟨-, hgo⟩ := hostAccess_eq_next (hostStep_memRead a s ▸ h)
    cases hgo
    exact .observes _ _
  | reset =>
    cases h
    exact .resets

/-- `s` with other turns to come and another observation: what taking a turn changes before its mover moves. -/
def State.withHost (s : State) (l : List Turn) (o : Option Observation) : State :=
  { s with schedule := l, observed := o }

/-- Who moved in a step, by the schedule's head. -/
inductive StepMove (s t : State) : Prop where
  /-- the engine: no turn is left, it is the engine's, or POLL has read DONE = 0 -/
  | engine (l : List Turn) (o : Option Observation) (h : engineStep (s.withHost l o) = .next t)
  | host (m : HostMove) (rest : List Turn) (hsched : s.schedule = .host m :: rest)
      (h : hostStep m (s.setSchedule rest) = .next t)
  /-- nobody: POLL has read DONE = 1 -/
  | pollEnds (l : List Turn) (o : Option Observation) (h : t = s.withHost l o)

theorem step_move {s t : State} (h : step s = .next t) : StepMove s t := by
  cases hsched : s.schedule with
  | nil =>
    rw [step_of_schedule_nil hsched] at h
    exact .engine s.schedule s.observed h
  | cons turn rest =>
    cases turn with
    | engine =>
      rw [step_of_engine_turn hsched] at h
      exact .engine rest s.observed h
    | host m =>
      rw [step_of_host_turn hsched] at h
      exact .host m rest hsched h
    | poll =>
      rw [step_of_poll_turn hsched] at h
      cases hdone : s.status.done with
      | true =>
        rw [pollStep_of_done rest hdone] at h
        cases h
        exact .pollEnds rest _ rfl
      | false =>
        rw [pollStep_of_not_done rest hdone] at h
        exact .engine s.schedule _ h

end Sys2Proof.Machine
end

section
/-! SUPPORT. The invariant under each named update of the state, then under the host's moves and the engine's. -/

namespace Sys2Proof.Machine

section Preservation

variable {s t : State}

/-! ### Updates of fields that the invariant does not read -/

theorem State.Inv.withHost (hs : s.Inv) (l : List Turn) (o : Option Observation) : (s.withHost l o).Inv := { hs with }

theorem State.Inv.setSchedule (hs : s.Inv) (l : List Turn) : (s.setSchedule l).Inv := { hs with }

theorem State.Inv.observe (hs : s.Inv) (o : Observation) : (s.observe o).Inv := { hs with }

theorem State.Inv.setCtrlStrict (hs : s.Inv) (b : Bool) : (s.setCtrlStrict b).Inv := { hs with }

theorem State.Inv.setSrcLen (hs : s.Inv) (w : Word) : (s.setSrcLen w).Inv := { hs with }

theorem State.Inv.setDstCap (hs : s.Inv) (w : Word) : (s.setDstCap w).Inv := { hs with }

/-! ### The address registers -/

/-- An address register keeps ADDR_W bits of what is written to it (R24). -/
theorem addrBits_lt (c : Config) (w : Word) : (addrBits c w).toNat < 2 ^ c.addrW := by
  rw [addrBits, BitVec.toNat_ofNat]
  exact lt_of_le_of_lt (Nat.mod_le _ _) (Nat.mod_lt _ (Nat.two_pow_pos _))

theorem State.Inv.setSrcAddr (hs : s.Inv) (w : Word) : (s.setSrcAddr (addrBits s.cfg w)).Inv :=
  { hs with addressesFit := ⟨addrBits_lt _ _, hs.addressesFit.2⟩ }

theorem State.Inv.setDstAddr (hs : s.Inv) (w : Word) : (s.setDstAddr (addrBits s.cfg w)).Inv :=
  { hs with addressesFit := ⟨hs.addressesFit.1, addrBits_lt _ _, hs.addressesFit.2.2⟩ }

/-! ### The memory -/

/-- Writes below `size` leave a memory that lists no address at `size` or above. -/
theorem writeBytes_inside {m : Memory} {size a : Nat} {bytes : List Byte} (hm : ∀ c ∈ m, c.1 < size)
    (hin : ∀ b, a ≤ b → b < a + bytes.length → b < size) : ∀ c ∈ Memory.writeBytes m a bytes, c.1 < size := by
  intro c hc
  rcases mem_writeBytes hc with ⟨hle, hlt⟩ | hold
  · exact hin c.1 hle hlt
  · exact hm c hold

theorem State.Inv.setMem_writeBytes (hs : s.Inv) {a : Nat} {bytes : List Byte}
    (hin : ∀ b, a ≤ b → b < a + bytes.length → b < s.cfg.memSize) :
    (s.setMem (Memory.writeBytes s.mem a bytes)).Inv :=
  { hs with
    memCanonical := writeBytes_wf hs.memCanonical a bytes
    memInside := writeBytes_inside hs.memInside hin }

/-! ### Acceptance, completion and reset -/

/-- Acceptance starts an operation with both cursors 0 (R92), which is legal whatever the operation. -/
theorem State.Inv.accept (hs : s.Inv) (op : Op) : (s.accept op).Inv :=
  { hs with
    addressesFit := ⟨hs.addressesFit.1, hs.addressesFit.2.1, hs.addressesFit.1, hs.addressesFit.2.1⟩
    busyActive := by simp
    busyDone := by simp
    errAfterDone := by simp
    cursors := by cases op <;> simp [State.cursorsLegal, State.rdN, State.wrN]
    results := by simp }

theorem State.Inv.command (hs : s.Inv) (op : Op) : (s.command op).Inv := by
  cases hb : s.status.busy with
  | true => rw [State.command_of_busy hb]; exact hs
  | false => rw [State.command_of_ready hb]; exact hs.accept op

/-- A completion leaves an idle engine, so the cursors may stand anywhere; RESULT and ERR must be legal (R175, R176). -/
theorem State.Inv.finish (hs : s.Inv) {rd wr r : Word} {e : ErrCode}
    (hres : ((s.setCursors rd wr).finish r e).resultLegal) : ((s.setCursors rd wr).finish r e).Inv :=
  { hs with
    busyActive := by simp
    busyDone := by simp
    errAfterDone := by simp
    cursors := by simp
    results := fun _ => hres }

/-- The write region of an abandoned operation reaches only as far as M does. -/
theorem writeRegion_inside (s : State) (b : Nat) (hlo : s.writeRegion.base ≤ b)
    (hhi : b < s.writeRegion.base + s.writeRegion.len) : b < s.cfg.memSize := by
  cases hp : s.phase with
  | idle => simp only [State.writeRegion, hp] at hlo hhi; omega
  | active => cases ho : s.op <;> simp only [State.writeRegion, hp, ho] at hlo hhi <;> omega

@[simp] theorem length_freeBytes (j k : Nat) : (freeBytes j k).length = k := by simp [freeBytes]

theorem State.Inv.resetBlock (hs : s.Inv) : s.resetBlock.Inv where
  cfgLegal := hs.cfgLegal
  memCanonical := writeBytes_wf hs.memCanonical _ _
  memInside := writeBytes_inside hs.memInside (by simpa using writeRegion_inside s)
  addressesFit := by simp
  busyActive := by simp
  busyDone := by simp
  errAfterDone := by simp
  cursors := by simp
  results := by simp

/-! ### The host's moves -/

theorem hostStep_keeps_inv {m : HostMove} (hs : s.Inv) (h : hostStep m s = .next t) : t.Inv := by
  cases hostStep_effect h with
  | observes _ o => exact hs.observe o
  | ignores => exact hs
  | setsCtrl _ b => exact hs.setCtrlStrict b
  | setsSrcAddr _ w => exact hs.setSrcAddr w
  | setsSrcLen _ w => exact hs.setSrcLen w
  | setsDstAddr _ w => exact hs.setDstAddr w
  | setsDstCap _ w => exact hs.setDstCap w
  | commands _ op => exact hs.command op
  | stores a v hin => exact hs.setMem_writeBytes (bytes := [v]) (by simp only [List.length_singleton]; omega)
  | resets => exact hs.resetBlock

/-! ### The engine's moves -/

theorem encodeChecks_fail {e : ErrCode} (h : s.encodeChecks = .fail e) :
    e = .invalidArgument ∨ e = .strictLiteral := by
  unfold State.encodeChecks at h
  split_ifs at h <;> cases h <;> simp

theorem decodeChecks_fail {e : ErrCode} (h : s.decodeChecks = .fail e) : e = .invalidArgument := by
  unfold State.decodeChecks at h
  split_ifs at h
  cases h
  rfl

/-- An operation that its checks reject fails with a code that R170 allows it, and the result of R174. -/
theorem fail_resultLegal_of_verdict {e : ErrCode} (h : s.verdict = .fail e) : (s.fail e).resultLegal := by
  unfold State.verdict at h
  split_ifs at h
  unfold State.resultLegal
  cases ho : s.op with
  | enc =>
    rw [ho] at h
    simp only [State.fail_op, ho]
    exact .inr ⟨encodeChecks_fail h, by simp [ho, failureResult]⟩
  | dec =>
    rw [ho] at h
    simp [ho, failureResult, decodeChecks_fail h]
  | ill =>
    rw [ho] at h
    cases h
    simp [ho, failureResult]

/-- RESULT after the input is consumed is wr, within the bound of the operation's write cursor (R102, R142). -/
theorem complete_resultLegal (hs : s.Inv) (hp : s.phase = .active) (ho : s.op = .enc ∨ s.op = .dec) (h0 : s.rdN ≠ 0) :
    (s.complete s.wr).resultLegal := by
  have hcur := hs.cursors hp
  unfold State.cursorsLegal at hcur
  unfold State.resultLegal
  rcases ho with ho | ho <;> simp only [ho] at hcur
  · obtain ⟨hrd, hwr, hstart⟩ := hcur
    have hpos := (hstart h0).1
    simp only [State.complete_op, ho]
    exact .inl ⟨rfl, hpos, le_trans hwr hrd⟩
  · simp only [State.complete_op, ho]
    exact .inl ⟨rfl, hcur.2.1⟩

theorem rdN_wrote_add {a k : Nat} {bytes : List Byte} {w : Word} (h : s.rdN + k < 2 ^ 32) :
    (s.wrote a bytes (s.rd + BitVec.ofNat 32 k) w).rdN = s.rdN + k := toNat_add_small h

theorem wrN_wrote_add {a k : Nat} {bytes : List Byte} {r : Word} (h : s.wrN + k < 2 ^ 32) :
    (s.wrote a bytes r (s.wr + BitVec.ofNat 32 k)).wrN = s.wrN + k := toNat_add_small h

/-- A write inside M that moves the cursors to a legal place keeps the invariant. -/
theorem State.Inv.wrote (hs : s.Inv) {a : Nat} {bytes : List Byte} {rd wr : Word}
    (hin : a + bytes.length ≤ s.cfg.memSize) (hcur : (s.wrote a bytes rd wr).cursorsLegal) :
    (s.wrote a bytes rd wr).Inv :=
  { hs.setMem_writeBytes (a := a) (bytes := bytes) (by omega) with cursors := fun _ => hcur }

/-- An engine step keeps the invariant: an emission or a token keeps the cursors in their bounds, and a completion has a
legal RESULT and ERR. -/
theorem engineStep_keeps_inv (hs : s.Inv) (h : engineStep s = .next t) : t.Inv := by
  have hmove := engineStep_move hs
  rw [h] at hmove
  cases hmove with
  | rests => exact hs
  | rejects e hp hv => exact hs.finish (rd := s.rd) (wr := s.wr) (fail_resultLegal_of_verdict hv)
  | completes hp ho h0 hrd => exact hs.finish (rd := s.rd) (wr := s.wr) (complete_resultLegal hs hp ho h0)
  | emits c v hp ho hv hc hb hpos hle hend hwr =>
    obtain ⟨hok, hdev⟩ := encode_started hs hp ho hv
    have hargs := (encodeArgsOk_iff s).1 hok
    have hlen := length_emittedBytes_le hpos v
    have hn : s.n < 2 ^ 32 := toNat_lt_word s.latchLen
    refine hs.wrote (by omega) ?_
    simp only [State.cursorsLegal, State.wrote_op, ho]
    rw [rdN_wrote_add (by omega), wrN_wrote_add (by omega)]
    exact ⟨hend, by omega, fun _ => ⟨by omega, hok, hdev⟩⟩
  | writes k bytes hp ho hv hk hend hcap =>
    have hchecks := decode_started hs hp ho hv
    have hargs := (decodeArgsOk_iff s).1 (decodeChecks_proceed hchecks).1
    have hn : s.tlen < 2 ^ 32 := toNat_lt_word s.latchLen
    have hc : s.cap < 2 ^ 32 := toNat_lt_word s.latchCap
    refine hs.wrote (by omega) ?_
    simp only [State.cursorsLegal, State.wrote_op, ho]
    rw [rdN_wrote_add (by omega), wrN_wrote_add (by omega)]
    exact ⟨hend, hcap, by omega, fun _ => hchecks⟩
  | stops e bytes w hp ho hv he hw hcap =>
    have hargs := (decodeArgsOk_iff s).1 (decodeChecks_proceed (decode_started hs hp ho hv)).1
    refine (hs.setMem_writeBytes (a := s.D + s.wrN) (bytes := bytes) (by omega)).finish ?_
    simp only [State.resultLegal, State.finish_op, State.setCursors_op, State.setMem_op, ho]
    exact .inr ⟨.inr he, by simp [ho, failureResult]⟩

end Preservation

/-- Settles O36: every clause is a fact about the literal reset state. -/
theorem resetIsLegal : Obligations.ResetIsLegal where
  cfgLegal := by decide
  memCanonical := reset_mem_wf
  memInside := by simp [State.reset]
  addressesFit := by decide
  busyActive := by decide
  busyDone := by decide
  errAfterDone := by decide
  cursors := by simp [State.reset]
  results := by simp

/-- Settles O37: the engine moves, the host does, or POLL ends, and each keeps the invariant. -/
theorem stepKeepsLegal : Obligations.StepKeepsLegal := by
  intro s t hs h
  cases step_move h with
  | engine l o h => exact engineStep_keeps_inv (hs.withHost l o) h
  | host m rest _ h => exact hostStep_keeps_inv (hs.setSchedule rest) h
  | pollEnds l o h => exact h ▸ hs.withHost l o

end Sys2Proof.Machine
end

section
/-! SUPPORT. The registers of the window: what the host reads and writes at each offset, what the reset signal leaves in
them, and the accesses that are refused. -/

namespace Sys2Proof.Machine

/-! ### STATUS as a word -/

/-- STATUS is a sum of its fields at their bit positions (R23). -/
theorem Status.toNat_word (u : Status) :
    u.word.toNat = u.busy.toNat + 2 * u.done.toNat + 16 * u.err.code.toNat := by
  obtain ⟨busy, done, err⟩ := u
  cases busy <;> cases done <;> cases err <;> decide

/-- Settles O13: each bit is read off the sum of `Status.toNat_word`; the codes are R170's. -/
theorem statusWordLayout : Obligations.StatusWordLayout := by
  intro u
  have hword := u.toNat_word
  have hbusy := Bool.toNat_lt u.busy
  have hdone := Bool.toNat_lt u.done
  have herr := u.err.code.isLt
  have hbit : ∀ k, u.word.getLsbD k = decide (u.word.toNat / 2 ^ k % 2 = 1) :=
    fun k => Nat.testBit_eq_decide_div_mod_eq
  refine ⟨?_, ?_, ?_, ?_, fun k hk => ?_, ?_⟩
  · rw [hbit, hword]
    cases u.busy <;> simp <;> omega
  · rw [hbit, hword]
    cases u.done <;> simp <;> omega
  · rw [hbit, hword]
    simp; omega
  · rw [hbit, hword]
    simp; omega
  · have hpow : 2 ^ 8 ≤ 2 ^ k := Nat.pow_le_pow_right (by decide) hk
    rw [hbit, Nat.div_eq_of_lt (by omega)]
    rfl
  · have hcode : u.word.toNat / 16 = u.err.code.toNat := by omega
    rw [hcode]
    cases u.err <;> rfl

/-! ### Reads and writes at an offset -/

/-- Settles O11: the access reaches `regAt off`, and both sides branch on the same offsets; CMD reads as 0. -/
theorem registerReadValues : Obligations.RegisterReadValues := by
  intro s off hoff halign
  simp only [hostStep, regAccess_ok s.cfg off hoff halign]
  congr 3
  unfold regAt
  by_cases hctrl : off = 0x00
  · subst hctrl; rfl
  · by_cases hcmd : off = 0x04
    · subst hcmd; rfl
    · simp only [if_neg hctrl, if_neg hcmd]
      split_ifs <;> rfl

theorem hostStep_regWrite_window (s : State) (w : Word) {off : Nat} (h : off < 0x40) (halign : off % 4 = 0) :
    hostStep (.regWrite (s.cfg.regBase + off) 32 w) s = writeReg (regAt off) w s := by
  simp only [hostStep, regAccess_ok s.cfg off h halign]

/-- A write to a register that the host may read only, or to a reserved offset, is ignored (R23, R25, R28). -/
theorem writeReg_regAt_ignored {off : Nat} (w : Word) (s : State) (h : off = 0x08 ∨ 0x1C ≤ off) :
    writeReg (regAt off) w s = .next s := by
  have hro : regAt off = .status ∨ regAt off = .result ∨ regAt off = .reserved := by
    unfold regAt
    rcases h with rfl | h
    · simp
    · right
      rw [if_neg (by omega), if_neg (by omega), if_neg (by omega), if_neg (by omega), if_neg (by omega),
        if_neg (by omega), if_neg (by omega)]
      split <;> simp
  rcases hro with hr | hr | hr <;> rw [hr] <;> rfl

/-- An address register keeps the low ADDR_W bits of the word (R24). -/
theorem toNat_addrBits (c : Config) (w : Word) : (addrBits c w).toNat = w.toNat % 2 ^ c.addrW % 2 ^ 32 := by
  rw [addrBits, BitVec.toNat_ofNat]

/-- Settles O12: the write reaches `regAt off`, which is settled offset by offset. -/
theorem registerWriteEffects : Obligations.RegisterWriteEffects := by
  intro s off w hoff halign hcmd
  rw [hostStep_regWrite_window s w hoff halign]
  by_cases hro : off = 0x08 ∨ 0x1C ≤ off
  · rw [writeReg_regAt_ignored w s hro]
    exact ⟨s, rfl, by omega, by omega, by omega, by omega, by omega, fun _ => rfl⟩
  · have hwritable : off = 0x00 ∨ off = 0x0C ∨ off = 0x10 ∨ off = 0x14 ∨ off = 0x18 := by omega
    have haddr := toNat_addrBits s.cfg w
    rcases hwritable with rfl | rfl | rfl | rfl | rfl
    · exact ⟨s.setCtrlStrict (w.getLsbD 0), rfl, by simp [State.setCtrlStrict]⟩
    · exact ⟨s.setSrcAddr (addrBits s.cfg w), rfl, by simp, fun _ => ⟨_, haddr, rfl⟩, by simp, by simp, by simp, by simp⟩
    · exact ⟨s.setSrcLen w, rfl, by simp [State.setSrcLen]⟩
    · exact ⟨s.setDstAddr (addrBits s.cfg w), rfl, by simp, by simp, by simp, fun _ => ⟨_, haddr, rfl⟩, by simp, by simp⟩
    · exact ⟨s.setDstCap w, rfl, by simp [State.setDstCap]⟩

/-! ### Refused accesses -/

theorem regAccess_outside {c : Config} {addr : Nat} (width : Nat)
    (h : addr < c.regBase ∨ c.regBase + 0x40 ≤ addr) : regAccess c addr width = .error .outsideWindow := by
  unfold regAccess
  exact if_pos h

theorem regAccess_odd {c : Config} {addr width : Nat} (hlo : c.regBase ≤ addr) (hhi : addr < c.regBase + 0x40)
    (h : width ≠ 32 ∨ (addr - c.regBase) % 4 ≠ 0) : regAccess c addr width = .error .badRegisterAccess := by
  unfold regAccess windowSize
  rw [if_neg (by omega), if_pos h]

/-- Settles O14: a read and a write are refused for the one reason that `regAccess` gives. -/
theorem oddRegisterAccessRefused : Obligations.OddRegisterAccessRefused := by
  intro s addr width w
  refine ⟨fun hlo hhi hodd => ?_, fun hout => ?_⟩
  · simp only [hostStep, regAccess_odd hlo hhi hodd, and_self]
  · simp only [hostStep, regAccess_outside width hout, and_self]

/-! ### Reset -/

theorem readReg_reset (r : Reg) : readReg r State.reset = 0#32 := by
  cases r <;> rfl

theorem readReg_resetBlock (r : Reg) (s : State) : readReg r s.resetBlock = 0#32 := by
  rw [← readReg_reset r]
  cases r <;> rfl

/-- An idle engine has no write region, so the reset signal draws no byte (R202). -/
theorem resetBlock_mem_of_idle {s : State} (hp : s.phase = .idle) : s.resetBlock.mem = s.mem := by
  have hregion : s.writeRegion = { base := 0, len := 0 } := by simp only [State.writeRegion, hp]
  rw [State.resetBlock_mem, hregion]
  rfl

/-- Settles O7: the registers by `readReg_reset`, the rest by the literal reset state. -/
theorem resetValues : Obligations.ResetValues :=
  ⟨readReg_reset, rfl, rfl, rfl, rfl, rfl⟩

/-- Settles O8, with `resetBlock` as the state that the signal answers. -/
theorem resetSignalClearsBlock : Obligations.ResetSignalClearsBlock := by
  intro s
  exact ⟨s.resetBlock, rfl, fun r => readReg_resetBlock r s, rfl, rfl, resetBlock_mem_of_idle⟩

end Sys2Proof.Machine
end

section
/-! SUPPORT. Host accesses to M, and the two steps that run an instruction: the engine's fetched token and the host's
command word. -/

namespace Sys2Proof.Machine

theorem hostAccess_outside {a : Nat} {s : State} (go : State → Result) (h : s.cfg.memSize ≤ a) :
    hostAccess a s go = .fault .outsideMemory := by
  rw [hostAccess, if_pos h]

/-- An access to a byte that exists, is no device's and is not the operation's goes through. -/
theorem hostAccess_free {a : Nat} {s : State} (go : State → Result) (hin : a < s.cfg.memSize)
    (hdev : ∀ r ∈ s.cfg.devices, inRegion r a = false) (htouch : s.mayTouch a = false) :
    hostAccess a s go = go s := by
  have hany : s.cfg.devices.any (inRegion · a) = false := by simpa using hdev
  rw [hostAccess, if_neg (by omega), hany, htouch]
  rfl

/-- Settles O59: the access faults or goes through, and a byte written is the one byte that reads otherwise. -/
theorem hostMemoryAccess : Obligations.HostMemoryAccess := by
  intro s a v hm
  rw [hostStep_memRead, hostStep_memWrite]
  refine ⟨fun hout => ⟨hostAccess_outside _ hout, hostAccess_outside _ hout⟩, fun hin hdev htouch => ?_⟩
  rw [hostAccess_free _ hin hdev htouch, hostAccess_free _ hin hdev htouch]
  exact ⟨rfl, Memory.writeByte s.mem a v, rfl, writeByte_wf hm a v, fun b => readByte_writeByte hm a b v⟩

/-- A running DECODE past its checks executes the token that its window of the stream decodes to (R139). -/
theorem engineStep_token {s : State} {i : Instr} {after : List Byte} (hp : s.phase = .active) (ho : s.op = .dec)
    (hv : s.verdict = .proceed) (hrd : s.rdN < s.tlen) (hT : s.T + s.tlen ≤ s.cfg.memSize)
    (htok : decodeToken s.tokenWindow = .ok (i, after)) : engineStep s = exec i s := by
  have hin : s.inMemory (s.T + s.rdN) (min 2 (s.tlen - s.rdN)) = true := by
    simp only [State.inMemory, Bool.or_eq_true, decide_eq_true_eq]
    omega
  simp only [engineStep, hp, hv, operationTurn, ho, decodeTurn, if_pos hrd, decodeTokenStep, if_pos hin, htok]

/-- Settles O19: the schedule is not read by the engine, so one law of the engine serves both turns. -/
theorem stepRunsFetchedToken : Obligations.StepRunsFetchedToken := by
  intro s i after rest hp ho hv hrd hT htok
  refine ⟨fun hsched => ?_, fun hsched => ?_⟩
  · rw [step_of_schedule_nil hsched]
    exact engineStep_token hp ho hv hrd hT htok
  · rw [step_of_engine_turn hsched]
    exact engineStep_token (s := s.setSchedule rest) hp ho hv hrd hT htok

theorem commandWrite_of_decode {w : Word} {i : Instr} (s : State) (h : decodeCommand w = .ok i) :
    commandWrite w s = exec i s := by
  simp only [commandWrite, h]

/-- Settles O20: the host's turn reaches CMD, which executes the word's instruction. -/
theorem stepRunsCommandWord : Obligations.StepRunsCommandWord := by
  intro s w rest i hsched hi
  rw [step_of_host_turn hsched]
  exact (hostStep_cmd (s.setSchedule rest) w).trans (commandWrite_of_decode _ hi)

end Sys2Proof.Machine
end

section
/-! SUPPORT. How the cursors, STATUS and RESULT move: read off the moves of the engine and the effects of the host. -/

namespace Sys2Proof.Machine

/-- Settles O40: of the engine's moves only an emission and a token leave an operation running. -/
theorem cursorsAdvance : Obligations.CursorsAdvance := by
  intro s t hs hp h hp'
  have hmove := engineStep_move hs
  rw [h] at hmove
  cases hmove with
  | rests hidle => simp [hidle] at hp
  | rejects e _ hv => simp at hp'
  | completes => simp at hp'
  | stops => simp at hp'
  | emits c v _ ho hv hc hb hpos hle hend hwr =>
    have hlen := length_emittedBytes_le hpos v
    have hn : s.n < 2 ^ 32 := toNat_lt_word s.latchLen
    rw [rdN_wrote_add (by omega), wrN_wrote_add (by omega)]
    exact ⟨rfl, by omega, .inl ⟨ho, by omega, by omega, hend, by omega⟩⟩
  | writes k bytes _ ho hv hk hend hcap =>
    have hn : s.tlen < 2 ^ 32 := toNat_lt_word s.latchLen
    have hc : s.cap < 2 ^ 32 := toNat_lt_word s.latchCap
    rw [rdN_wrote_add (by omega), wrN_wrote_add (by omega)]
    exact ⟨rfl, by omega, .inr ⟨ho, by omega, hend, by omega⟩⟩

/-- What a step did to STATUS and RESULT, by the event that did it; `next` is the turn the step took. -/
inductive StatusEvent (s t : State) (next : Option Turn) : Prop where
  | none (hstatus : t.status = s.status) (hresult : t.result = s.result)
  /-- R175, R176 -/
  | completion (e : ErrCode) (hbusy : s.status.busy = true) (hstatus : t.status = Status.completed e)
  /-- R92 -/
  | acceptance (w : Word) (hnext : next = some (.host (.regWrite (s.cfg.regBase + 0x04) 32 w)))
      (hready : s.status.busy = false) (hstatus : t.status = Status.accepted) (hresult : t.result = s.result)
  /-- R200 -/
  | reset (hnext : next = some (.host .reset)) (hstatus : t.status = State.reset.status)

/-- The event of a step from a state with the same parameters, STATUS and RESULT. -/
theorem StatusEvent.of_same {s u t : State} {next : Option Turn} (h : StatusEvent u t next) (hcfg : u.cfg = s.cfg)
    (hstatus : u.status = s.status) (hresult : u.result = s.result) : StatusEvent s t next := by
  cases h with
  | none h1 h2 => exact .none (h1.trans hstatus) (h2.trans hresult)
  | completion e hb h1 => exact .completion e (hstatus ▸ hb) h1
  | acceptance w hn hr h1 h2 => exact .acceptance w (hcfg ▸ hn) (hstatus ▸ hr) h1 (h2.trans hresult)
  | reset hn h1 => exact .reset hn h1

theorem engineStep_statusEvent {s t : State} (next : Option Turn) (hs : s.Inv) (h : engineStep s = .next t) :
    t.cfg = s.cfg ∧ StatusEvent s t next := by
  have hmove := engineStep_move hs
  rw [h] at hmove
  cases hmove with
  | rests => exact ⟨rfl, .none rfl rfl⟩
  | emits => exact ⟨rfl, .none rfl rfl⟩
  | writes => exact ⟨rfl, .none rfl rfl⟩
  | rejects e hp => exact ⟨rfl, .completion e (hs.busyActive.2 hp) rfl⟩
  | completes hp => exact ⟨rfl, .completion .noError (hs.busyActive.2 hp) rfl⟩
  | stops e bytes w hp => exact ⟨rfl, .completion e (hs.busyActive.2 hp) rfl⟩

theorem hostStep_statusEvent {s t : State} {m : HostMove} (h : hostStep m s = .next t) :
    t.cfg = s.cfg ∧ StatusEvent s t (some (.host m)) := by
  cases hostStep_effect h with
  | commands w op =>
    cases hb : s.status.busy with
    | true =>
      rw [State.command_of_busy hb]
      exact ⟨rfl, .none rfl rfl⟩
    | false =>
      rw [State.command_of_ready hb]
      exact ⟨rfl, .acceptance w rfl hb rfl rfl⟩
  | resets => exact ⟨rfl, .reset rfl rfl⟩
  | observes => exact ⟨rfl, .none rfl rfl⟩
  | ignores => exact ⟨rfl, .none rfl rfl⟩
  | setsCtrl => exact ⟨rfl, .none rfl rfl⟩
  | setsSrcAddr => exact ⟨rfl, .none rfl rfl⟩
  | setsSrcLen => exact ⟨rfl, .none rfl rfl⟩
  | setsDstAddr => exact ⟨rfl, .none rfl rfl⟩
  | setsDstCap => exact ⟨rfl, .none rfl rfl⟩
  | stores => exact ⟨rfl, .none rfl rfl⟩

theorem step_statusEvent {s t : State} (hs : s.Inv) (h : step s = .next t) :
    t.cfg = s.cfg ∧ StatusEvent s t s.schedule.head? := by
  cases step_move h with
  | engine l o h =>
    obtain ⟨hcfg, hevent⟩ := engineStep_statusEvent _ (hs.withHost l o) h
    exact ⟨hcfg, hevent.of_same rfl rfl rfl⟩
  | host m rest hsched h =>
    obtain ⟨hcfg, hevent⟩ := hostStep_statusEvent h
    rw [hsched]
    exact ⟨hcfg, hevent.of_same rfl rfl rfl⟩
  | pollEnds l o h =>
    subst h
    exact ⟨rfl, .none rfl rfl⟩

/-- Settles O41: each clause is checked for each of the four events. -/
theorem statusAndResultChangeOnlySo : Obligations.StatusAndResultChangeOnlySo := by
  intro s t hs h
  obtain ⟨hcfg, hevent⟩ := step_statusEvent hs h
  refine ⟨hcfg, ?_⟩
  cases hevent with
  | none hstatus hresult => simp +contextual [hstatus, hresult]
  | completion e hbusy hstatus => simp [hstatus, hbusy]
  | acceptance w hnext hready hstatus hresult => simp [hstatus, hresult, hready, hnext]
  | reset hnext hstatus => simp [hstatus, hnext]

end Sys2Proof.Machine
end

section
/-! SUPPORT. An idle engine's latches: the host's moves act alike on two states that differ in them only. -/

namespace Sys2Proof.Machine

@[simp] theorem State.withLatches_cfg (s : State) (l : Latches) : (s.withLatches l).cfg = s.cfg := rfl
@[simp] theorem State.withLatches_phase (s : State) (l : Latches) : (s.withLatches l).phase = s.phase := rfl
@[simp] theorem State.withLatches_status (s : State) (l : Latches) : (s.withLatches l).status = s.status := rfl

theorem engineStep_of_idle {s : State} (hp : s.phase = .idle) : engineStep s = .next s := by
  simp only [engineStep, hp]

theorem hostAccess_of_idle {s : State} (hp : s.phase = .idle) (a : Nat) (go : State → Result) :
    hostAccess a s go =
      if s.cfg.memSize ≤ a then .fault .outsideMemory
      else if s.cfg.devices.any (inRegion · a) then .refused .deviceAccess
      else go s := by
  simp only [hostAccess, mayTouch_idle hp, Bool.false_eq_true, if_false]

/-- Acceptance overwrites every latch (R92), so it does not depend on them. -/
theorem withLatches_command {s : State} (hb : s.status.busy = false) (l : Latches) (op : Op) :
    (s.withLatches l).command op = s.command op := by
  rw [State.command_of_ready hb, State.command_of_ready (s := s.withLatches l) hb]
  rfl

/-- The reset signal gives every latch its reset value, and an idle engine has no write region. -/
theorem withLatches_resetBlock {s : State} (hp : s.phase = .idle) (l : Latches) :
    (s.withLatches l).resetBlock = s.resetBlock := by
  simp only [State.resetBlock, State.writeRegion, State.withLatches, hp]

theorem writeReg_withLatches {s : State} (l z : Latches) (hb : s.status.busy = false) (r : Reg) (w : Word) :
    Result.mapNext (fun t => t.withLatches z) (writeReg r w (s.withLatches l)) =
      Result.mapNext (fun t => t.withLatches z) (writeReg r w s) := by
  cases r with
  | cmd => simp only [writeReg, commandWrite_eq, withLatches_command hb]
  | _ => rfl

section IdleSteps

variable {s : State} (l z : Latches) (hp : s.phase = .idle) (hb : s.status.busy = false)
include hp hb

theorem hostStep_withLatches (m : HostMove) :
    Result.mapNext (fun t => t.withLatches z) (hostStep m (s.withLatches l)) =
      Result.mapNext (fun t => t.withLatches z) (hostStep m s) := by
  have hp' : (s.withLatches l).phase = .idle := hp
  cases m with
  | regWrite addr width w =>
    simp only [hostStep, State.withLatches_cfg]
    cases regAccess s.cfg addr width with
    | error e => rfl
    | ok r => exact writeReg_withLatches l z hb r w
  | regRead addr width =>
    simp only [hostStep, State.withLatches_cfg]
    cases regAccess s.cfg addr width with
    | error e => rfl
    | ok r => cases r <;> rfl
  | memWrite a v =>
    rw [hostStep_memWrite, hostStep_memWrite, hostAccess_of_idle hp, hostAccess_of_idle hp', State.withLatches_cfg]
    split_ifs <;> rfl
  | memRead a =>
    rw [hostStep_memRead, hostStep_memRead, hostAccess_of_idle hp, hostAccess_of_idle hp', State.withLatches_cfg]
    split_ifs <;> rfl
  | reset => simp only [hostStep, withLatches_resetBlock hp]

theorem step_withLatches :
    Result.mapNext (fun t => t.withLatches z) (step (s.withLatches l)) =
      Result.mapNext (fun t => t.withLatches z) (step s) := by
  cases hsched : s.schedule with
  | nil =>
    rw [step_of_schedule_nil hsched, step_of_schedule_nil (s := s.withLatches l) hsched, engineStep_of_idle hp,
      engineStep_of_idle (s := s.withLatches l) hp]
    rfl
  | cons turn rest =>
    cases turn with
    | engine =>
      rw [step_of_engine_turn hsched, step_of_engine_turn (s := s.withLatches l) hsched,
        engineStep_of_idle (s := s.setSchedule rest) hp,
        engineStep_of_idle (s := (s.withLatches l).setSchedule rest) hp]
      rfl
    | host m =>
      rw [step_of_host_turn hsched, step_of_host_turn (s := s.withLatches l) hsched]
      exact hostStep_withLatches (s := s.setSchedule rest) l z hp hb m
    | poll =>
      rw [step_of_poll_turn hsched, step_of_poll_turn (s := s.withLatches l) hsched]
      cases hdone : s.status.done with
      | true =>
        rw [pollStep_of_done rest hdone, pollStep_of_done (s := s.withLatches l) rest hdone]
        rfl
      | false =>
        rw [pollStep_of_not_done rest hdone, pollStep_of_not_done (s := s.withLatches l) rest hdone,
          engineStep_of_idle (s := s.observe _) hp, engineStep_of_idle (s := (s.withLatches l).observe _) hp]
        rfl

end IdleSteps

/-- From an idle engine only a write to CMD leads to an active one. -/
theorem hostStep_active_of_idle {s t : State} {m : HostMove} (hp : s.phase = .idle) (h : hostStep m s = .next t)
    (hp' : t.phase = .active) : ∃ w, m = .regWrite (s.cfg.regBase + 0x04) 32 w := by
  cases hostStep_effect h with
  | commands w op => exact ⟨w, rfl⟩
  | resets => simp at hp'
  | _ => simp [hp] at hp'

theorem step_active_of_idle {s t : State} (hp : s.phase = .idle) (h : step s = .next t) (hp' : t.phase = .active) :
    ∃ w rest, s.schedule = .host (.regWrite (s.cfg.regBase + 0x04) 32 w) :: rest := by
  cases step_move h with
  | engine l o h =>
    rw [engineStep_of_idle (s := s.withHost l o) hp] at h
    cases h
    exact nomatch hp.symm.trans hp'
  | host m rest hsched h =>
    obtain ⟨w, rfl⟩ := hostStep_active_of_idle (s := s.setSchedule rest) hp h hp'
    exact ⟨w, rest, hsched⟩
  | pollEnds l o h =>
    subst h
    exact nomatch hp.symm.trans hp'

/-- Settles O56: up to the latches by `step_withLatches`; a step that starts an operation is a write to CMD, whose
acceptance overwrites them all. -/
theorem idleLatchesUnread : Obligations.IdleLatchesUnread := by
  intro s l z hp hb
  refine ⟨step_withLatches l z hp hb, fun t h hp' => ?_⟩
  obtain ⟨w, rest, hsched⟩ := step_active_of_idle hp h hp'
  have hstep : ∀ u : State, u.cfg = s.cfg → u.schedule = s.schedule →
      step u = commandWrite w (u.setSchedule rest) := by
    intro u hcfg hu
    rw [step_of_host_turn (hu.trans hsched), ← hcfg]
    exact hostStep_cmd (u.setSchedule rest) w
  rw [hstep s rfl rfl, commandWrite_eq] at h
  rw [hstep (s.withLatches l) rfl rfl, commandWrite_eq, ← h]
  exact congrArg _ (withLatches_command (s := s.setSchedule rest) hb l _)

end Sys2Proof.Machine
end

section
/-! SUPPORT. What LIT and RUN can do in any state, legal or not: advance, having written some of their output, or stop
with a failure. -/

namespace Sys2Proof.Machine

/-- The effect of a token of output length `count`: the bytes it writes at D + wr are at most its output, and fit the
capacity that is left. -/
inductive TokenEffect (s : State) (count : Nat) : State → Prop where
  | advances (bytes : List Byte) (r w : Word) (hlen : bytes.length ≤ min count (s.cap - s.wrN)) :
      TokenEffect s count (s.wrote (s.D + s.wrN) bytes r w)
  | stops (e : ErrCode) (bytes : List Byte) (w : Word) (he : e = .outputOverflow ∨ e = .truncatedStream)
      (hlen : bytes.length ≤ min count (s.cap - s.wrN)) :
      TokenEffect s count ((s.wrote (s.D + s.wrN) bytes s.rd w).fail e)

/-- A failure before any write. -/
theorem TokenEffect.fails {s : State} (count : Nat) {e : ErrCode} (he : e = .outputOverflow ∨ e = .truncatedStream) :
    TokenEffect s count (s.fail e) := by
  have h := TokenEffect.stops (s := s) (count := count) e [] s.wr he (Nat.zero_le _)
  rwa [writeBytes_nil] at h

/-- Writing on at the end of what was written is writing the whole. -/
theorem wrote_wrote (s : State) (a : Nat) (xs ys : List Byte) (r w r' w' : Word) :
    (s.wrote a xs r w).wrote (a + xs.length) ys r' w' = s.wrote a (xs ++ ys) r' w' := by
  simp only [State.wrote, State.setMem, State.setCursors, writeBytes_append]

/-- One byte written, then the effect of the remaining `count` bytes. -/
theorem TokenEffect.cons {s t : State} {v : Byte} {count : Nat} (hcap : s.wrN + 1 ≤ s.cap)
    (h : TokenEffect (s.wrote (s.D + s.wrN) [v] s.rd (s.wr + 1)) count t) : TokenEffect s (count + 1) t := by
  have hc : s.cap < 2 ^ 32 := toNat_lt_word s.latchCap
  have hwr : (s.wrote (s.D + s.wrN) [v] s.rd (s.wr + 1)).wrN = s.wrN + 1 := wrN_wrote_add (k := 1) (by omega)
  have hD : (s.wrote (s.D + s.wrN) [v] s.rd (s.wr + 1)).D = s.D := rfl
  have hC : (s.wrote (s.D + s.wrN) [v] s.rd (s.wr + 1)).cap = s.cap := rfl
  have haddr : s.D + (s.wrN + 1) = s.D + s.wrN + [v].length := by simp; omega
  cases h with
  | advances bytes r w hlen =>
    rw [hC, hwr] at hlen
    rw [hD, hwr, haddr, wrote_wrote]
    exact .advances _ r w (by simp; omega)
  | stops e bytes w he hlen =>
    rw [hC, hwr] at hlen
    rw [hD, hwr, haddr, wrote_wrote]
    exact .stops e _ w he (by simp; omega)

theorem execLit_effect {v : Byte} {s t : State} (h : execLit v s = .next t) : TokenEffect s 1 t := by
  unfold execLit at h
  split at h
  case isTrue => cases h; exact .fails 1 (.inl rfl)
  case isFalse hcap =>
    rcases storeBytes_cases (s.D + s.wrN) [v] s with hstore | ⟨hstore, -⟩ <;> rw [hstore] at h
    · cases h
      exact .advances [v] _ _ (by simp; omega)
    · cases h

theorem runByteLoop_effect {v : Byte} (c : Nat) {s t : State} (h : runByteLoop v c s = .next t) :
    TokenEffect s c t := by
  induction c generalizing s with
  | zero =>
    cases h
    exact .advances [] _ _ (Nat.zero_le _)
  | succ c ih =>
    unfold runByteLoop at h
    split at h
    case isTrue => cases h; exact .fails _ (.inl rfl)
    case isFalse hcap =>
      rcases storeBytes_cases (s.D + s.wrN) [v] s with hstore | ⟨hstore, -⟩ <;> rw [hstore] at h
      · exact .cons (by omega) (ih h)
      · cases h

theorem execRun_effect {c : BitVec 7} {v : Byte} {s t : State} (h : execRun c v s = .next t) :
    TokenEffect s c.toNat t := by
  unfold execRun at h
  split at h
  case isTrue => cases h; exact .fails _ (.inr rfl)
  case isFalse =>
    split at h
    case h_2 => exact runByteLoop_effect _ h
    case h_1 =>
      split at h
      case isTrue => cases h; exact .fails _ (.inl rfl)
      case isFalse hcap =>
        rcases storeBytes_cases (s.D + s.wrN) (List.replicate c.toNat v) s with hstore | ⟨hstore, -⟩ <;>
          rw [hstore] at h
        · cases h
          exact .advances (List.replicate c.toNat v) _ _ (by simp; omega)
        · cases h

theorem exec_token_effect {i : Instr} {s t : State} (hi : i.isToken = true) (h : exec i s = .next t) :
    TokenEffect s (outputCount i) t := by
  cases i with
  | lit v => exact execLit_effect h
  | run c v => exact execRun_effect h
  | encode => simp [Instr.isToken] at hi
  | decode => simp [Instr.isToken] at hi

/-- Bytes written at D + wr, at most `count` and within the capacity left, leave every byte elsewhere as it was. -/
theorem readByte_outside_output {s : State} (hm : Memory.wf s.mem) {count a : Nat} {bytes : List Byte}
    (hlen : bytes.length ≤ min count (s.cap - s.wrN))
    (ha : a < s.D + s.wrN ∨ s.D + s.wrN + count ≤ a ∨ s.D + s.cap ≤ a) :
    Memory.readByte (Memory.writeBytes s.mem (s.D + s.wrN) bytes) a = Memory.readByte s.mem a :=
  readByte_writeBytes_of_outside hm (by omega)

/-- Settles O23: both effects of a token write at D + wr, no more than its output and no further than D + cap. -/
theorem tokenFrame : Obligations.TokenFrame := by
  intro s t i hi hm h
  cases exec_token_effect hi h with
  | advances bytes r w hlen => simpa using fun a => readByte_outside_output hm hlen
  | stops e bytes w he hlen =>
    refine ⟨rfl, rfl, rfl, rfl, rfl, rfl, rfl, rfl, rfl, rfl, rfl, rfl, rfl, rfl, rfl, .inr ?_,
      fun a => readByte_outside_output hm hlen⟩
    exact ⟨he.imp (congrArg Status.completed) (congrArg Status.completed), rfl, rfl, rfl⟩

end Sys2Proof.Machine
end

section
/-! SUPPORT. The engine does not see the five writable registers: each of its operations commutes with changing them. -/

namespace Sys2Proof.Machine

/-! ### Operations that commute with a change of the state -/

/-- Changing the state by `f` before `go` is changing the next state by `f` after it. -/
def Commutes (f : State → State) (go : State → Result) : Prop := ∀ s, go (f s) = Result.mapNext f (go s)

/-- A branch whose condition the change does not touch. -/
theorem ite_eq_mapNext {f : State → State} {p : Prop} [Decidable p] {x y x' y' : Result}
    (hx : x' = Result.mapNext f x) (hy : y' = Result.mapNext f y) :
    (if p then x' else y') = Result.mapNext f (if p then x else y) := by
  split
  case isTrue => exact hx
  case isFalse => exact hy

/-- A sequence whose first part has taken the change along. -/
theorem Commutes.andThen {f : State → State} {go : State → Result} (hgo : Commutes f go) {r r' : Result}
    (hr : r' = Result.mapNext f r) : r'.andThen go = Result.mapNext f (r.andThen go) := by
  subst hr
  cases r with
  | next u => exact hgo u
  | fault e => rfl
  | refused e => rfl

/-- A token stream decodes to tokens only. -/
theorem isToken_of_decodeToken {bytes after : List Byte} {i : Instr} (h : decodeToken bytes = .ok (i, after)) :
    i.isToken = true := by
  unfold decodeToken at h
  split at h
  case h_1 => cases h
  case h_2 =>
    split at h
    case isFalse => cases h; rfl
    case isTrue =>
      split at h
      case h_1 => cases h
      case h_2 => cases h; rfl

/-! ### The five registers -/

section Registers

variable (strict : Bool) (sa sl da dc : Word)

theorem storeBytes_withRegisters (a : Nat) (bytes : List Byte) :
    Commutes (fun t => t.withRegisters strict sa sl da dc) (storeBytes a bytes) :=
  fun _ => ite_eq_mapNext rfl rfl

theorem execLit_withRegisters (v : Byte) :
    Commutes (fun t => t.withRegisters strict sa sl da dc) (execLit v) := by
  intro s
  unfold execLit
  exact ite_eq_mapNext rfl
    (Commutes.andThen (fun _ => rfl) (storeBytes_withRegisters strict sa sl da dc (s.D + s.wrN) [v] s))

theorem runByteLoop_withRegisters (v : Byte) (c : Nat) :
    Commutes (fun t => t.withRegisters strict sa sl da dc) (runByteLoop v c) := by
  induction c with
  | zero => exact fun _ => rfl
  | succ c ih =>
    intro s
    unfold runByteLoop
    exact ite_eq_mapNext rfl
      (Commutes.andThen (fun u => ih (u.setCursors u.rd (u.wr + 1)))
        (storeBytes_withRegisters strict sa sl da dc (s.D + s.wrN) [v] s))

theorem execRun_withRegisters (c : BitVec 7) (v : Byte) :
    Commutes (fun t => t.withRegisters strict sa sl da dc) (execRun c v) := by
  intro s
  unfold execRun
  refine ite_eq_mapNext rfl ?_
  have hcfg : (s.withRegisters strict sa sl da dc).cfg = s.cfg := rfl
  rw [hcfg]
  cases s.cfg.decOvfCheck with
  | run =>
    exact ite_eq_mapNext rfl (Commutes.andThen (fun _ => rfl)
      (storeBytes_withRegisters strict sa sl da dc (s.D + s.wrN) (List.replicate c.toNat v) s))
  | byte => exact runByteLoop_withRegisters strict sa sl da dc v c.toNat s

theorem exec_token_withRegisters {i : Instr} (hi : i.isToken = true) :
    Commutes (fun t => t.withRegisters strict sa sl da dc) (exec i) := by
  cases i with
  | lit v => exact execLit_withRegisters strict sa sl da dc v
  | run c v => exact execRun_withRegisters strict sa sl da dc c v
  | encode => simp [Instr.isToken] at hi
  | decode => simp [Instr.isToken] at hi

theorem decodeTokenStep_withRegisters :
    Commutes (fun t => t.withRegisters strict sa sl da dc) decodeTokenStep := by
  intro s
  unfold decodeTokenStep
  refine ite_eq_mapNext ?_ rfl
  have hwindow : (s.withRegisters strict sa sl da dc).tokenWindow = s.tokenWindow := rfl
  rw [hwindow]
  cases htok : decodeToken s.tokenWindow with
  | error e => rfl
  | ok token => exact exec_token_withRegisters strict sa sl da dc (isToken_of_decodeToken htok) s

theorem emit_withRegisters (bytes : List Byte) :
    Commutes (fun t => t.withRegisters strict sa sl da dc) (emit bytes) :=
  fun s => Commutes.andThen (fun _ => rfl) (storeBytes_withRegisters strict sa sl da dc (s.B + s.wrN) bytes s)

theorem encodeTokenStep_withRegisters :
    Commutes (fun t => t.withRegisters strict sa sl da dc) encodeTokenStep := by
  intro s
  unfold encodeTokenStep
  refine ite_eq_mapNext (Commutes.andThen (fun _ => rfl) (ite_eq_mapNext ?_ ?_)) rfl
  · exact emit_withRegisters strict sa sl da dc _ s
  · exact emit_withRegisters strict sa sl da dc _ s

theorem operationTurn_withRegisters :
    Commutes (fun t => t.withRegisters strict sa sl da dc) operationTurn := by
  intro s
  have hop : (s.withRegisters strict sa sl da dc).op = s.op := rfl
  unfold operationTurn
  rw [hop]
  cases s.op with
  | enc => exact ite_eq_mapNext (encodeTokenStep_withRegisters strict sa sl da dc s) rfl
  | dec => exact ite_eq_mapNext (decodeTokenStep_withRegisters strict sa sl da dc s) rfl
  | ill => rfl

theorem engineStep_withRegisters :
    Commutes (fun t => t.withRegisters strict sa sl da dc) engineStep := by
  intro s
  have hphase : (s.withRegisters strict sa sl da dc).phase = s.phase := rfl
  have hverdict : (s.withRegisters strict sa sl da dc).verdict = s.verdict := rfl
  unfold engineStep
  rw [hphase, hverdict]
  cases s.phase with
  | idle => rfl
  | active =>
    cases s.verdict with
    | proceed => exact operationTurn_withRegisters strict sa sl da dc s
    | fail e => rfl
    | refuse r => rfl

end Registers

/-- Settles O55: no operation of the engine reads or changes one of the five registers. -/
theorem registerWritesUnseenByEngine : Obligations.RegisterWritesUnseenByEngine :=
  fun s strict sa sl da dc => engineStep_withRegisters strict sa sl da dc s

end Sys2Proof.Machine
end

section
/-! SUPPORT. The engine's bytes of M: when its checks refuse an operation, which bytes a move may change, and the host's
race with a running operation. -/

namespace Sys2Proof.Machine

/-! ### Refusals at an operation's start -/

theorem encodeChecks_refuse {s : State} {r : Refusal} (h : s.encodeChecks = .refuse r) :
    hasDevice s.cfg s.buffer = true ∧ r = .deviceInRegion := by
  unfold State.encodeChecks at h
  split at h
  · cases h
  · split at h
    case isTrue hdev => cases h; exact ⟨hdev, rfl⟩
    case isFalse => split at h <;> cases h

theorem decodeChecks_refuse {s : State} {r : Refusal} (h : s.decodeChecks = .refuse r) :
    (regionsOverlap s.tokens s.output = true ∧ r = .overlappingRegions) ∨
      ((hasDevice s.cfg s.tokens = true ∨ hasDevice s.cfg s.output = true) ∧ r = .deviceInRegion) := by
  unfold State.decodeChecks at h
  split at h
  · cases h
  · split at h
    case isTrue hover => cases h; exact .inl ⟨hover, rfl⟩
    case isFalse =>
      split at h
      case isTrue hdev => cases h; exact .inr ⟨by simpa using hdev, rfl⟩
      case isFalse => cases h

/-- The checks refuse before the first token only, a DECODE for its regions (R68) or an operation for a device (R58). -/
theorem verdict_refuse {s : State} {r : Refusal} (h : s.verdict = .refuse r) :
    s.rdN = 0 ∧
      ((s.op = .dec ∧ regionsOverlap s.tokens s.output = true ∧ r = .overlappingRegions) ∨
       (s.op = .dec ∧ (hasDevice s.cfg s.tokens = true ∨ hasDevice s.cfg s.output = true) ∧ r = .deviceInRegion) ∨
       (s.op = .enc ∧ hasDevice s.cfg s.buffer = true ∧ r = .deviceInRegion)) := by
  unfold State.verdict at h
  split at h
  case isFalse => cases h
  case isTrue h0 =>
    refine ⟨h0, ?_⟩
    cases ho : s.op with
    | enc =>
      rw [ho] at h
      exact .inr (.inr ⟨rfl, encodeChecks_refuse h⟩)
    | dec =>
      rw [ho] at h
      exact (decodeChecks_refuse h).imp (⟨rfl, ·⟩) fun hdev => .inl ⟨rfl, hdev⟩
    | ill => rw [ho] at h; cases h

theorem engineStep_of_refuse {s : State} {r : Refusal} (hp : s.phase = .active) (hv : s.verdict = .refuse r) :
    engineStep s = .refused r := by
  simp only [engineStep, hp, hv]

/-- Settles O38: no move of the engine is a fault, and the one refusal is that of its checks. -/
theorem engineNeverLeavesMemory : Obligations.EngineNeverLeavesMemory := by
  intro s hs
  have hmove := engineStep_move hs
  cases hstep : engineStep s with
  | next t => exact .inl ⟨t, rfl⟩
  | fault e => rw [hstep] at hmove; cases hmove
  | refused r =>
    rw [hstep] at hmove
    cases hmove with
    | refuses _ hp hv =>
      obtain ⟨h0, hcause⟩ := verdict_refuse hv
      refine .inr ⟨hp, h0, ?_⟩
      rcases hcause with ⟨ho, hover, rfl⟩ | ⟨ho, hdev, rfl⟩ | ⟨ho, hdev, rfl⟩
      · exact .inl ⟨ho, hover, rfl⟩
      · exact .inr (.inl ⟨ho, hdev, rfl⟩)
      · exact .inr (.inr ⟨ho, hdev, rfl⟩)

theorem regionsOverlap_of_common {r q : Region} {a : Nat} (hr : r.base ≤ a ∧ a < r.base + r.len)
    (hq : q.base ≤ a ∧ a < q.base + q.len) : regionsOverlap r q = true :=
  decide_eq_true (by omega)

/-- Settles O25: the arguments pass, so the overlap is the next of DECODE's checks. -/
theorem overlappingDecodeRefused : Obligations.OverlappingDecodeRefused := by
  intro s hp ho h0 htlen hT hD ⟨a, haT, haD⟩
  have hargs : s.decodeArgsOk = true := (decodeArgsOk_iff s).2 ⟨htlen, hT, hD⟩
  have hover : regionsOverlap s.tokens s.output = true := regionsOverlap_of_common haT haD
  apply engineStep_of_refuse hp
  simp [State.verdict, h0, ho, State.decodeChecks, hargs, hover]

/-! ### The bytes that a move changes -/

/-- Writes in a row change bytes of their own range only. -/
theorem inside_of_readByte_writeBytes_ne {m : Memory} (hm : Memory.wf m) {x a : Nat} {bytes : List Byte}
    (h : Memory.readByte (Memory.writeBytes m x bytes) a ≠ Memory.readByte m a) : x ≤ a ∧ a < x + bytes.length := by
  by_contra hout
  exact h (readByte_writeBytes_of_outside hm (by omega))

/-- A byte that a DECODE past its checks changes, writing at D + wr within the capacity, is one that it may touch. -/
theorem decode_write_footprint {s : State} {a : Nat} {bytes : List Byte} (hs : s.Inv) (hp : s.phase = .active)
    (ho : s.op = .dec) (hv : s.verdict = .proceed) (hcap : s.wrN + bytes.length ≤ s.cap)
    (hne : Memory.readByte (Memory.writeBytes s.mem (s.D + s.wrN) bytes) a ≠ Memory.readByte s.mem a) :
    s.mayTouch a = true ∧ s.D ≤ a ∧ a < s.D + s.cap := by
  have hin := inside_of_readByte_writeBytes_ne hs.memCanonical hne
  have hout : s.D ≤ a ∧ a < s.D + s.cap := by omega
  exact ⟨(mayTouch_dec hp ho a).2 ⟨(decodeChecks_proceed (decode_started hs hp ho hv)).1, .inr hout⟩, hout⟩

/-- Settles O39: only an emission and a token's writes change M, the one within the input already read, the other within
the capacity. -/
theorem engineFootprint : Obligations.EngineFootprint := by
  intro s t a hs h hne
  have hmove := engineStep_move hs
  rw [h] at hmove
  cases hmove with
  | rests | rejects | completes => exact absurd rfl hne
  | emits c v hp ho hv _ _ hpos _ hend hwr =>
    have hin := inside_of_readByte_writeBytes_ne hs.memCanonical hne
    have hlen := length_emittedBytes_le hpos v
    have hbuf : s.B ≤ a ∧ a < s.B + s.n := by omega
    exact ⟨hp, (mayTouch_enc hp ho a).2 ⟨(encode_started hs hp ho hv).1, hbuf⟩, .inl ⟨ho, hbuf⟩⟩
  | writes k bytes hp ho hv _ _ hcap | stops e bytes w hp ho hv _ _ hcap =>
    obtain ⟨htouch, hout⟩ := decode_write_footprint hs hp ho hv hcap hne
    exact ⟨hp, htouch, .inr ⟨ho, hout⟩⟩

/-! ### The host's access to a byte of the operation -/

theorem hostAccess_race {a : Nat} {s : State} (go : State → Result) (hin : a < s.cfg.memSize)
    (hdev : ∀ r ∈ s.cfg.devices, inRegion r a = false) (htouch : s.mayTouch a = true) :
    hostAccess a s go = .refused .raceWithEngine := by
  have hany : s.cfg.devices.any (inRegion · a) = false := by simpa using hdev
  rw [hostAccess, if_neg (by omega), hany, htouch]
  rfl

/-- Settles O58: the byte is one that the operation may touch, whichever of its regions holds it. -/
theorem racingAccessRefused : Obligations.RacingAccessRefused := by
  intro s a v hp hin hdev hregion
  have htouch : s.mayTouch a = true := by
    rcases hregion with ⟨ho, hn, hB, ha⟩ | ⟨ho, htlen, hT, hD, ha⟩
    · exact (mayTouch_enc hp ho a).2 ⟨(encodeArgsOk_iff s).2 ⟨hn, hB⟩, ha⟩
    · exact (mayTouch_dec hp ho a).2 ⟨(decodeArgsOk_iff s).2 ⟨htlen, hT, hD⟩, ha⟩
  rw [hostStep_memWrite, hostStep_memRead]
  exact ⟨hostAccess_race _ hin hdev htouch, hostAccess_race _ hin hdev htouch⟩

end Sys2Proof.Machine
end

section
/-! SUPPORT. A host write to a byte that the running operation may not touch, exchanged with the engine's step: with the
checks, with an encode token step, with a token, and so with the whole step. -/

namespace Sys2Proof.Machine

/-- The state after the host's write of `v` to the byte at `a` has gone through. -/
def State.hostWrite (s : State) (a : Nat) (v : Byte) : State := s.setMem (Memory.writeByte s.mem a v)

@[simp] theorem State.hostWrite_cfg (s : State) (a : Nat) (v : Byte) : (s.hostWrite a v).cfg = s.cfg := rfl
@[simp] theorem State.hostWrite_phase (s : State) (a : Nat) (v : Byte) : (s.hostWrite a v).phase = s.phase := rfl
@[simp] theorem State.hostWrite_op (s : State) (a : Nat) (v : Byte) : (s.hostWrite a v).op = s.op := rfl
@[simp] theorem State.hostWrite_B (s : State) (a : Nat) (v : Byte) : (s.hostWrite a v).B = s.B := rfl
@[simp] theorem State.hostWrite_n (s : State) (a : Nat) (v : Byte) : (s.hostWrite a v).n = s.n := rfl
@[simp] theorem State.hostWrite_rdN (s : State) (a : Nat) (v : Byte) : (s.hostWrite a v).rdN = s.rdN := rfl

/-- A write of `M[a]` by the host that goes through answers `hostWrite`. -/
theorem hostStep_memWrite_free {s : State} {a : Nat} (v : Byte) (hin : a < s.cfg.memSize)
    (hdev : ∀ r ∈ s.cfg.devices, inRegion r a = false) (htouch : s.mayTouch a = false) :
    hostStep (.memWrite a v) s = .next (s.hostWrite a v) := by
  rw [hostStep_memWrite, hostAccess_free _ hin hdev htouch]
  rfl

section HostWrite

variable {s : State} {a : Nat} (v : Byte) (hm : Memory.wf s.mem)
include hm

/-- The engine's writes and a host write elsewhere can be exchanged. -/
theorem wrote_hostWrite {x : Nat} {bytes : List Byte} (r w : Word) (h : a < x ∨ x + bytes.length ≤ a) :
    (s.hostWrite a v).wrote x bytes r w = (s.wrote x bytes r w).hostWrite a v := by
  simp only [State.hostWrite, State.wrote, State.setMem, State.setCursors, writeBytes_writeByte_comm hm a x v bytes h]

theorem readByte_hostWrite {b : Nat} (h : b ≠ a) :
    Memory.readByte (s.hostWrite a v).mem b = Memory.readByte s.mem b := by
  rw [State.hostWrite, State.setMem_mem, readByte_writeByte hm, if_neg h]

theorem readBytes_hostWrite {b k : Nat} (h : a < b ∨ b + k ≤ a) :
    Memory.readBytes (s.hostWrite a v).mem b k = Memory.readBytes s.mem b k :=
  readBytes_congr fun _ _ _ => readByte_hostWrite v hm (by omega)

/-! ### ENCODE -/

theorem strictFinds_hostWrite (hout : a < s.B ∨ s.B + s.n ≤ a) : (s.hostWrite a v).strictFinds = s.strictFinds := by
  rw [Bool.eq_iff_iff, strictFinds_iff, strictFinds_iff, State.hostWrite_cfg, State.hostWrite_B, State.hostWrite_n,
    readBytes_hostWrite v hm hout]

theorem encodeChecks_hostWrite (hout : s.encodeArgsOk = true → a < s.B ∨ s.B + s.n ≤ a) :
    (s.hostWrite a v).encodeChecks = s.encodeChecks := by
  have hargs : (s.hostWrite a v).encodeArgsOk = s.encodeArgsOk := rfl
  unfold State.encodeChecks
  rw [hargs]
  cases hok : s.encodeArgsOk with
  | false => rfl
  | true => rw [strictFinds_hostWrite v hm (hout hok)]; rfl

/-- The token is emitted within the buffer, from bytes of the buffer (R105). -/
theorem encodeTokenStep_hostWrite (hrd : s.rdN < s.n) (hwr : s.wrN ≤ s.rdN) (hp : s.B + s.n ≤ s.cfg.memSize)
    (hout : a < s.B ∨ s.B + s.n ≤ a) :
    encodeTokenStep (s.hostWrite a v) = Result.mapNext (·.hostWrite a v) (encodeTokenStep s) := by
  have hbyte : Memory.readByte (s.hostWrite a v).mem (s.B + s.rdN) = Memory.readByte s.mem (s.B + s.rdN) :=
    readByte_hostWrite v hm (by omega)
  have hrun : runlen (s.hostWrite a v).mem (s.B + s.rdN) (s.n - s.rdN) = runlen s.mem (s.B + s.rdN) (s.n - s.rdN) :=
    runlen_congr (by omega) fun _ _ _ => readByte_hostWrite v hm (by omega)
  have hle := runlen_le s.mem (s.B + s.rdN) (s.n - s.rdN)
  have hlen := length_emittedBytes_le (runlen_pos s.mem (s.B + s.rdN) (k := s.n - s.rdN) (by omega))
    (Memory.readByte s.mem (s.B + s.rdN))
  have hstep := encodeTokenStep_next (s := s.hostWrite a v) hrd hwr hp
  rw [State.hostWrite_B, State.hostWrite_rdN, State.hostWrite_n, hbyte, hrun] at hstep
  rw [hstep, encodeTokenStep_next hrd hwr hp]
  exact congrArg _ (wrote_hostWrite (x := s.B + s.wrN) v hm _ _ (by omega))

/-! ### DECODE -/

section Output

variable (hp : s.D + s.cap ≤ s.cfg.memSize) (hout : a < s.D ∨ s.D + s.cap ≤ a) (hwr : s.wrN ≤ s.cap)
include hp hout

theorem execLit_hostWrite (b : Byte) :
    execLit b (s.hostWrite a v) = Result.mapNext (·.hostWrite a v) (execLit b s) := by
  by_cases hcap : s.wrN + 1 ≤ s.cap
  · have hfits := execLit_fits (v := b) (s := s.hostWrite a v) hcap (by show s.D + s.wrN + 1 ≤ s.cfg.memSize; omega)
    rw [hfits, execLit_fits hcap (by omega)]
    refine congrArg _ (wrote_hostWrite (x := s.D + s.wrN) v hm _ _ ?_)
    simp only [List.length_singleton]
    omega
  · have hfull := execLit_overflow (v := b) (s := s.hostWrite a v) (Nat.lt_of_not_le hcap)
    rw [hfull, execLit_overflow (Nat.lt_of_not_le hcap)]
    rfl

include hwr

theorem execRun_hostWrite (c : BitVec 7) (b : Byte) :
    execRun c b (s.hostWrite a v) = Result.mapNext (·.hostWrite a v) (execRun c b s) := by
  by_cases hrd : s.rdN + 1 < s.tlen
  case neg =>
    have htrunc := execRun_truncated (c := c) (v := b) (s := s.hostWrite a v) (Nat.le_of_not_lt hrd)
    rw [htrunc, execRun_truncated (Nat.le_of_not_lt hrd)]
    rfl
  by_cases hcap : s.wrN + c.toNat ≤ s.cap
  case pos =>
    have hfits := execRun_fits (c := c) (v := b) (s := s.hostWrite a v) hrd hcap
      (by show s.D + s.wrN + c.toNat ≤ s.cfg.memSize; omega)
    rw [hfits, execRun_fits hrd hcap (by omega)]
    refine congrArg _ (wrote_hostWrite (x := s.D + s.wrN) v hm _ _ ?_)
    simp only [List.length_replicate]
    omega
  have hfull : s.cap < s.wrN + c.toNat := Nat.lt_of_not_le hcap
  cases hmode : s.cfg.decOvfCheck with
  | run =>
    have hover := execRun_overflow_run (c := c) (v := b) (s := s.hostWrite a v) hmode hrd hfull
    rw [hover, execRun_overflow_run hmode hrd hfull]
    rfl
  | byte =>
    have hover := execRun_overflow_byte (c := c) (v := b) (s := s.hostWrite a v) hmode hrd hwr hfull hp
    rw [hover, execRun_overflow_byte hmode hrd hwr hfull hp]
    refine congrArg (fun t => Host.Outcome.next (State.fail t .outputOverflow))
      (wrote_hostWrite (x := s.D + s.wrN) (bytes := List.replicate (s.cap - s.wrN) b) v hm _ _ ?_)
    simp only [List.length_replicate]
    omega

theorem exec_token_hostWrite {i : Instr} (hi : i.isToken = true) :
    exec i (s.hostWrite a v) = Result.mapNext (·.hostWrite a v) (exec i s) := by
  cases i with
  | lit b => exact execLit_hostWrite v hm hp hout b
  | run c b => exact execRun_hostWrite v hm hp hout hwr c b
  | encode => simp [Instr.isToken] at hi
  | decode => simp [Instr.isToken] at hi

/-- The token fetched is the same, since its bytes lie in the token region (R139). -/
theorem decodeTokenStep_hostWrite (hrd : s.rdN < s.tlen) (htok : a < s.T ∨ s.T + s.tlen ≤ a) :
    decodeTokenStep (s.hostWrite a v) = Result.mapNext (·.hostWrite a v) (decodeTokenStep s) := by
  have hwindow : (s.hostWrite a v).tokenWindow = s.tokenWindow :=
    readBytes_hostWrite (b := s.T + s.rdN) (k := min 2 (s.tlen - s.rdN)) v hm (by omega)
  unfold decodeTokenStep
  refine ite_eq_mapNext ?_ rfl
  rw [hwindow]
  cases hdec : decodeToken s.tokenWindow with
  | error e => rfl
  | ok token => exact exec_token_hostWrite v hm hp hout hwr (isToken_of_decodeToken hdec)

end Output

end HostWrite

/-! ### The engine's step -/

theorem encodeTurn_of_lt {s : State} (h : s.rdN < s.n) : encodeTurn s = encodeTokenStep s := if_pos h

theorem encodeTurn_of_not_lt {s : State} (h : ¬s.rdN < s.n) : encodeTurn s = complete s.wr s := if_neg h

theorem decodeTurn_of_lt {s : State} (h : s.rdN < s.tlen) : decodeTurn s = decodeTokenStep s := if_pos h

theorem decodeTurn_of_not_lt {s : State} (h : ¬s.rdN < s.tlen) : decodeTurn s = complete s.wr s := if_neg h

section EngineStep

variable {s : State} {a : Nat} (v : Byte) (hs : s.Inv) (hp : s.phase = .active) (htouch : s.mayTouch a = false)
include hp htouch

theorem outside_buffer_of_untouchable (ho : s.op = .enc) (hargs : s.encodeArgsOk = true) :
    a < s.B ∨ s.B + s.n ≤ a := by
  have hnot : ¬(s.B ≤ a ∧ a < s.B + s.n) := fun ha =>
    Bool.false_ne_true (htouch.symm.trans ((mayTouch_enc hp ho a).2 ⟨hargs, ha⟩))
  omega

theorem outside_regions_of_untouchable (ho : s.op = .dec) (hargs : s.decodeArgsOk = true) :
    (a < s.T ∨ s.T + s.tlen ≤ a) ∧ (a < s.D ∨ s.D + s.cap ≤ a) := by
  have hnot : ¬((s.T ≤ a ∧ a < s.T + s.tlen) ∨ (s.D ≤ a ∧ a < s.D + s.cap)) := fun ha =>
    Bool.false_ne_true (htouch.symm.trans ((mayTouch_dec hp ho a).2 ⟨hargs, ha⟩))
  omega

include hs

/-- The checks read the byte at `a` in no case: DECODE's read no byte of M, ENCODE's the buffer alone (R101, R104). -/
theorem verdict_hostWrite : (s.hostWrite a v).verdict = s.verdict := by
  unfold State.verdict
  rw [State.hostWrite_rdN, State.hostWrite_op]
  cases ho : s.op with
  | enc =>
    rw [encodeChecks_hostWrite v hs.memCanonical (outside_buffer_of_untouchable hp htouch ho)]
  | dec => rfl
  | ill => rfl

theorem operationTurn_hostWrite (hv : s.verdict = .proceed) :
    operationTurn (s.hostWrite a v) = Result.mapNext (·.hostWrite a v) (operationTurn s) := by
  have hcur := hs.cursors hp
  unfold operationTurn
  rw [State.hostWrite_op]
  cases ho : s.op with
  | enc =>
    obtain ⟨hargs, -⟩ := encode_started hs hp ho hv
    obtain ⟨-, hpresent⟩ := (encodeArgsOk_iff s).1 hargs
    simp only [State.cursorsLegal, ho] at hcur
    obtain ⟨-, hwr, -⟩ := hcur
    simp only
    by_cases hrd : s.rdN < s.n
    · rw [encodeTurn_of_lt (s := s.hostWrite a v) hrd, encodeTurn_of_lt hrd]
      exact encodeTokenStep_hostWrite v hs.memCanonical hrd hwr hpresent
        (outside_buffer_of_untouchable hp htouch ho hargs)
    · rw [encodeTurn_of_not_lt (s := s.hostWrite a v) hrd, encodeTurn_of_not_lt hrd]
      rfl
  | dec =>
    obtain ⟨hargs, -⟩ := decodeChecks_proceed (decode_started hs hp ho hv)
    obtain ⟨-, -, hpresent⟩ := (decodeArgsOk_iff s).1 hargs
    obtain ⟨htok, hout⟩ := outside_regions_of_untouchable hp htouch ho hargs
    simp only [State.cursorsLegal, ho] at hcur
    obtain ⟨-, hwr, -⟩ := hcur
    simp only
    by_cases hrd : s.rdN < s.tlen
    · rw [decodeTurn_of_lt (s := s.hostWrite a v) hrd, decodeTurn_of_lt hrd]
      exact decodeTokenStep_hostWrite v hs.memCanonical hpresent hout hwr hrd htok
    · rw [decodeTurn_of_not_lt (s := s.hostWrite a v) hrd, decodeTurn_of_not_lt hrd]
      rfl
  | ill => rfl

theorem engineStep_hostWrite :
    engineStep (s.hostWrite a v) = Result.mapNext (·.hostWrite a v) (engineStep s) := by
  unfold engineStep
  rw [State.hostWrite_phase, hp, verdict_hostWrite v hs hp htouch]
  cases hv : s.verdict with
  | proceed => exact operationTurn_hostWrite v hs hp htouch hv
  | fail e => rfl
  | refuse r => rfl

end EngineStep

/-- Settles O57: the checks, the fetched bytes and the bytes written are the same with the host's byte in M, and the two
writes are of different bytes. -/
theorem hostWriteElsewhereCommutes : Obligations.HostWriteElsewhereCommutes :=
  fun _ _ v hs hp htouch => engineStep_hostWrite v hs hp htouch

end Sys2Proof.Machine
end

section
/-! SUPPORT. The token format and the command words of 30_encoding.md: what the decoders answer on the bytes of an
instruction, and what the bytes were when they answer an instruction. -/

namespace Sys2Proof

/-! ### One token -/

theorem decodeToken_lit {b : Byte} (hb : isRunHeader b = false) (rest : List Byte) :
    decodeToken (b :: rest) = .ok (.lit b, rest) := by
  simp [decodeToken, hb]

theorem decodeToken_run {b : Byte} (hb : isRunHeader b = true) (v : Byte) (rest : List Byte) :
    decodeToken (b :: v :: rest) = .ok (.run (headerCount b) v, rest) := by
  simp [decodeToken, hb]

theorem decodeToken_truncated {b : Byte} (hb : isRunHeader b = true) : decodeToken [b] = .error .truncatedRun := by
  simp [decodeToken, hb]

/-- A literal in the safe domain is no run header (R82). -/
theorem isRunHeader_of_lit_wellFormed {v : Byte} (hv : (Instr.lit v).wellFormed = true) : isRunHeader v = false := by
  have hlt : v.toNat < 0x80 := by simpa [Instr.wellFormed] using hv
  simp [isRunHeader_iff, hlt]

/-- The decoder reads back a token where its bytes begin, and leaves what follows them (R81). -/
theorem decodeToken_tokenBytes {i : Instr} (htok : i.isToken = true) (hwf : i.wellFormed = true) (rest : List Byte) :
    decodeToken (tokenBytes i ++ rest) = .ok (i, rest) := by
  cases i with
  | lit v => exact decodeToken_lit (isRunHeader_of_lit_wellFormed hwf) rest
  | run c v =>
    have hrun := decodeToken_run (isRunHeader_runHeader c) v rest
    rwa [headerCount_runHeader] at hrun
  | encode => simp [Instr.isToken] at htok
  | decode => simp [Instr.isToken] at htok

/-- A token was read from its own bytes: its kind is that of bit 7 of the first one (R81). -/
theorem decodeToken_eq_ok {bytes rest : List Byte} {i : Instr} (h : decodeToken bytes = .ok (i, rest)) :
    (∃ b, isRunHeader b = false ∧ i = .lit b ∧ bytes = b :: rest) ∨
      (∃ b v, isRunHeader b = true ∧ i = .run (headerCount b) v ∧ bytes = b :: v :: rest) := by
  cases bytes with
  | nil => cases h
  | cons b more =>
    cases hb : isRunHeader b with
    | false =>
      rw [decodeToken_lit hb] at h
      cases h
      exact .inl ⟨b, hb, rfl, rfl⟩
    | true =>
      cases more with
      | nil => rw [decodeToken_truncated hb] at h; cases h
      | cons v more =>
        rw [decodeToken_run hb] at h
        cases h
        exact .inr ⟨b, v, hb, rfl, rfl⟩

/-- What the decoder reads is a well-formed token, and the bytes it read are that token's. -/
theorem tokenBytes_of_decodeToken {bytes rest : List Byte} {i : Instr} (h : decodeToken bytes = .ok (i, rest)) :
    i.isToken = true ∧ i.wellFormed = true ∧ tokenBytes i ++ rest = bytes := by
  rcases decodeToken_eq_ok h with ⟨b, hb, rfl, rfl⟩ | ⟨b, v, hb, rfl, rfl⟩
  · exact ⟨rfl, by simpa [Instr.wellFormed, isRunHeader_iff] using hb, rfl⟩
  · exact ⟨rfl, rfl, by simp [tokenBytes, runHeader_headerCount hb]⟩

/-! ### A stream of tokens -/

@[simp] theorem assemble_nil : assemble [] = [] := rfl

@[simp] theorem assemble_cons (i : Instr) (tokens : List Instr) :
    assemble (i :: tokens) = tokenBytes i ++ assemble tokens := rfl

theorem tokenBytes_length_pos {i : Instr} (htok : i.isToken = true) : 0 < (tokenBytes i).length := by
  cases i <;> simp_all [tokenBytes, Instr.isToken]

theorem decodeTokens_nil (fuel : Nat) : decodeTokens fuel [] = .ok [] := by
  cases fuel <;> rfl

theorem decodeTokens_of_token {bytes rest : List Byte} {i : Instr} (fuel : Nat)
    (h : decodeToken bytes = .ok (i, rest)) :
    decodeTokens (fuel + 1) bytes = (decodeTokens fuel rest).map (i :: ·) := by
  cases bytes with
  | nil => cases h
  | cons b more => rw [decodeTokens, h]

theorem decodeTokens_of_error {bytes : List Byte} {e : DecodeError} (fuel : Nat) (hne : bytes ≠ [])
    (h : decodeToken bytes = .error e) : decodeTokens (fuel + 1) bytes = .error e := by
  cases bytes with
  | nil => exact absurd rfl hne
  | cons b more => rw [decodeTokens, h]

/-- Fuel of the stream's length is enough: each token takes at least one byte. -/
theorem decodeTokens_assemble {tokens : List Instr} (h : ∀ i ∈ tokens, i.isToken = true ∧ i.wellFormed = true)
    (fuel : Nat) (hfuel : (assemble tokens).length ≤ fuel) : decodeTokens fuel (assemble tokens) = .ok tokens := by
  induction tokens generalizing fuel with
  | nil => exact decodeTokens_nil fuel
  | cons i tokens ih =>
    obtain ⟨⟨htok, hwf⟩, hrest⟩ := List.forall_mem_cons.1 h
    have hpos := tokenBytes_length_pos htok
    simp only [assemble_cons, List.length_append] at hfuel ⊢
    obtain ⟨f, rfl⟩ : ∃ f, fuel = f + 1 := ⟨fuel - 1, by omega⟩
    rw [decodeTokens_of_token f (decodeToken_tokenBytes htok hwf _), ih hrest f (by omega)]
    rfl

theorem decodeStream_assemble {tokens : List Instr} (h : ∀ i ∈ tokens, i.isToken = true ∧ i.wellFormed = true) :
    decodeStream (assemble tokens) = .ok tokens :=
  decodeTokens_assemble h _ (Nat.le_refl _)

/-- A stream that parses is the bytes of well-formed tokens. -/
theorem assemble_of_decodeTokens {fuel : Nat} {bytes : List Byte} {tokens : List Instr}
    (h : decodeTokens fuel bytes = .ok tokens) :
    (∀ i ∈ tokens, i.isToken = true ∧ i.wellFormed = true) ∧ assemble tokens = bytes := by
  induction fuel generalizing bytes tokens with
  | zero =>
    cases bytes with
    | nil => cases h; simp
    | cons b more => cases h
  | succ fuel ih =>
    cases bytes with
    | nil => cases h; simp
    | cons b more =>
      cases htok : decodeToken (b :: more) with
      | error e => rw [decodeTokens_of_error fuel (by simp) htok] at h; cases h
      | ok token =>
        obtain ⟨i, rest⟩ := token
        obtain ⟨hi, hwf, hbytes⟩ := tokenBytes_of_decodeToken htok
        rw [decodeTokens_of_token fuel htok] at h
        cases hrest : decodeTokens fuel rest with
        | error e => rw [hrest] at h; cases h
        | ok later =>
          rw [hrest] at h
          cases h
          obtain ⟨hlater, hassemble⟩ := ih hrest
          exact ⟨List.forall_mem_cons.2 ⟨⟨hi, hwf⟩, hlater⟩, by rw [assemble_cons, hassemble, hbytes]⟩

/-- A stream parses into exactly the lists of well-formed tokens that assemble to it. -/
theorem decodeStream_eq_ok_iff {bytes : List Byte} {tokens : List Instr} :
    decodeStream bytes = .ok tokens ↔
      (∀ i ∈ tokens, i.isToken = true ∧ i.wellFormed = true) ∧ assemble tokens = bytes := by
  constructor
  · exact assemble_of_decodeTokens
  · rintro ⟨h, rfl⟩
    exact decodeStream_assemble h

/-! ### Command words -/

theorem eq_one_iff_toNat (w : Word) : w = 0x00000001#32 ↔ w.toNat = 1 := by simp [← BitVec.toNat_inj]

theorem eq_two_iff_toNat (w : Word) : w = 0x00000002#32 ↔ w.toNat = 2 := by simp [← BitVec.toNat_inj]

theorem encode_of_decodeCommand {w : Word} {i : Instr} (h : decodeCommand w = .ok i) : encode i = .command w := by
  unfold decodeCommand at h
  split at h
  case isTrue hw => cases h; rw [hw]; rfl
  case isFalse =>
    split at h
    case isTrue hw => cases h; rw [hw]; rfl
    case isFalse => cases h

/-! ### The statements about the encodings -/

/-- Settles O2: a token is read back from its bytes, a command from its word. -/
theorem decodeUndoesEncode : Obligations.DecodeUndoesEncode := by
  intro i hwf
  cases i with
  | lit v => exact congrArg (Except.map Prod.fst) (decodeToken_tokenBytes (i := .lit v) rfl hwf [])
  | run c v => exact congrArg (Except.map Prod.fst) (decodeToken_tokenBytes (i := .run c v) rfl hwf [])
  | encode => rfl
  | decode => rfl

/-- Settles O3, by the induction over the tokens of `decodeTokens_assemble`. -/
theorem streamDecodeUndoesAssemble : Obligations.StreamDecodeUndoesAssemble :=
  fun _ h => decodeStream_assemble h

/-- Settles O4: what each of the three decoders answers was written in the bytes it read. -/
theorem encodeUndoesDecode : Obligations.EncodeUndoesDecode :=
  ⟨fun _ _ _ => tokenBytes_of_decodeToken, fun _ _ h => (decodeStream_eq_ok_iff.1 h).2,
    fun _ _ => encode_of_decodeCommand⟩

/-- Settles O1: closed words, decoded. -/
theorem sampleWordsDecode : Obligations.SampleWordsDecode := by
  unfold Obligations.SampleWordsDecode
  decide

/-- Settles O5: bit 7 is what `isRunHeader` tests, and the count of a header is its value modulo 128. -/
theorem firstByteDecidesToken : Obligations.FirstByteDecidesToken := fun b v rest =>
  ⟨fun hlit => decodeToken_lit hlit rest, fun hrun =>
    ⟨⟨headerCount b, toNat_headerCount b, decodeToken_run hrun v rest⟩, decodeToken_truncated hrun⟩⟩

/-- Settles O6: the two comparisons of `decodeCommand`, in the order in which it makes them. -/
theorem commandWordDecoding : Obligations.CommandWordDecoding := by
  intro w
  rw [← eq_one_iff_toNat, ← eq_two_iff_toNat, ne_eq, ne_eq, ← eq_one_iff_toNat, ← eq_two_iff_toNat]
  unfold decodeCommand
  by_cases h1 : w = 0x00000001#32
  case pos => simp [h1]
  by_cases h2 : w = 0x00000002#32
  case pos => simp [h2]
  simp [h1, h2]

end Sys2Proof
end

section
/-! SUPPORT. ENCODE and DECODE as command words (R92), the engine past an operation's checks, and the engine at a
run header without its value byte (R141). -/

namespace Sys2Proof.Machine

/-! ### The command words -/

theorem exec_encode (s : State) : exec .encode s = .next (s.command .enc) := rfl

theorem exec_decode (s : State) : exec .decode s = .next (s.command .dec) := rfl

theorem hostStep_cmd_of_busy {s : State} (hb : s.status.busy = true) (w : Word) :
    hostStep (.regWrite (s.cfg.regBase + 0x04) 32 w) s = .next s := by
  rw [hostStep_cmd, commandWrite_eq, State.command_of_busy hb]

theorem hostStep_cmd_of_ready {s : State} (hb : s.status.busy = false) (w : Word) :
    hostStep (.regWrite (s.cfg.regBase + 0x04) 32 w) s =
      .next (s.accept (if w.toNat = 1 then .enc else if w.toNat = 2 then .dec else .ill)) := by
  rw [hostStep_cmd, commandWrite_eq, State.command_of_ready hb]

/-- Settles O16: a write to CMD while BUSY = 0 answers `accept`, whose fields are its laws. -/
theorem commandAcceptance : Obligations.CommandAcceptance := by
  intro s w
  refine ⟨fun hb => hostStep_cmd_of_busy hb w, fun hb => ⟨_, hostStep_cmd_of_ready hb w, ?_⟩⟩
  refine ⟨rfl, rfl, rfl, rfl, rfl, rfl, rfl, rfl, rfl, rfl, rfl, rfl, rfl, rfl, rfl, rfl, rfl, rfl, rfl, rfl, rfl, rfl,
    rfl, fun hw => ?_, fun hw => ?_⟩
  · rw [exec_encode, State.command_of_ready hb, hw]; rfl
  · rw [exec_decode, State.command_of_ready hb, hw]; rfl

/-- Settles O17: the command is ignored or accepted, and acceptance sets the latches, the cursors, STATUS and the phase
alone. -/
theorem commandFrame : Obligations.CommandFrame := by
  intro s t i hi h
  obtain ⟨op, rfl⟩ : ∃ op, t = s.command op := by
    rcases hi with rfl | rfl <;> cases h
    exacts [⟨.enc, rfl⟩, ⟨.dec, rfl⟩]
  cases hb : s.status.busy with
  | true => simp [State.command_of_busy hb]
  | false => simp [State.command_of_ready hb]

/-! ### The engine past its checks -/

section PastChecks

variable {s : State} (hp : s.phase = .active) (hv : s.verdict = .proceed)
include hp hv

theorem engineStep_encode (ho : s.op = .enc) (hrd : s.rdN < s.n) : engineStep s = encodeTokenStep s := by
  simp only [engineStep, hp, hv, operationTurn, ho, encodeTurn_of_lt hrd]

theorem engineStep_decode (ho : s.op = .dec) (hrd : s.rdN < s.tlen) : engineStep s = decodeTokenStep s := by
  simp only [engineStep, hp, hv, operationTurn, ho, decodeTurn_of_lt hrd]

/-- With the input consumed the operation completes (R142, R175). -/
theorem engineStep_consumed (ho : s.op = .enc ∨ s.op = .dec) (hrd : s.rdN = s.latchLen.toNat) :
    engineStep s = .next (s.complete s.wr) := by
  have hend : ¬s.rdN < s.latchLen.toNat := by omega
  rcases ho with ho | ho
  · simp only [engineStep, hp, hv, operationTurn, ho, encodeTurn_of_not_lt hend, complete]
  · simp only [engineStep, hp, hv, operationTurn, ho, decodeTurn_of_not_lt hend, complete]

end PastChecks

/-! ### A truncated header -/

/-- A running DECODE past its checks fails where no token can be fetched (R141). -/
theorem engineStep_no_token {s : State} {e : DecodeError} (hp : s.phase = .active) (ho : s.op = .dec)
    (hv : s.verdict = .proceed) (hrd : s.rdN < s.tlen) (hT : s.T + s.tlen ≤ s.cfg.memSize)
    (htok : decodeToken s.tokenWindow = .error e) : engineStep s = .next (s.fail .truncatedStream) := by
  have hin : s.inMemory (s.T + s.rdN) (min 2 (s.tlen - s.rdN)) = true := by
    simp only [State.inMemory, Bool.or_eq_true, decide_eq_true_eq]
    omega
  rw [engineStep_decode hp hv ho hrd, decodeTokenStep, if_pos hin, htok]
  rfl

/-- At the stream's last byte the window is that byte (R139). -/
theorem tokenWindow_last {s : State} (h : s.rdN + 1 = s.tlen) :
    s.tokenWindow = [Memory.readByte s.mem (s.T + s.rdN)] := by
  have hone : min 2 (s.tlen - s.rdN) = 1 := by omega
  rw [State.tokenWindow, hone]
  rfl

/-- Settles O24: the header's window holds no value byte, so no token is fetched, whatever the capacity. -/
theorem truncatedHeaderFails : Obligations.TruncatedHeaderFails := by
  intro s hp ho hv hlast hT hheader
  have htok : decodeToken s.tokenWindow = .error .truncatedRun := by
    rw [tokenWindow_last hlast]
    exact decodeToken_truncated (by rw [isRunHeader_iff]; exact decide_eq_true hheader)
  refine ⟨_, engineStep_no_token hp ho hv (by omega) hT htok, rfl, rfl, rfl, ?_, rfl, rfl, rfl, rfl⟩
  rw [State.fail_result, ho]
  rfl

end Sys2Proof.Machine
end

section
/-! SUPPORT. The run of an ENCODE past its checks: each token step writes the first token of enc of the input that is
left (R105, R109), and the run writes enc of the whole input and completes. -/

namespace Sys2Proof.Machine

/-- The last step of a run: the input is consumed, and nothing is left to write. -/
theorem run_consumed {s : State} (hsched : s.schedule = []) (hp : s.phase = .active) (hv : s.verdict = .proceed)
    (ho : s.op = .enc ∨ s.op = .dec) (hrd : s.rdN = s.latchLen.toNat) :
    core.run 1 s = .next (s.complete s.wr) :=
  run_succ hsched (engineStep_consumed hp hv ho hrd) 0

/-- enc never expands (R111). -/
theorem length_enc_le (input : List Byte) : (enc input).length ≤ input.length := by
  induction input using emit_induction with
  | h0 => exact Nat.le_refl _
  | h1 v rest c hc hpos _ hle _ ih =>
    have hhead := (length_emittedBytes_le hpos v).2
    rw [enc_cons, ← hc, List.length_append]
    rw [List.length_drop] at ih
    omega

/-! ### ENCODE -/

/-- An ENCODE past its checks, with no turns left: what each of its token steps keeps. -/
structure State.Encoding (s : State) : Prop where
  active : s.phase = .active
  op : s.op = .enc
  checked : s.verdict = .proceed
  noTurns : s.schedule = []
  canonical : Memory.wf s.mem
  present : s.B + s.n ≤ s.cfg.memSize
  rd_le : s.rdN ≤ s.n
  wr_le : s.wrN ≤ s.rdN

/-- The input that ENCODE has not read yet. -/
def State.inputLeft (s : State) : List Byte := Memory.readBytes s.mem (s.B + s.rdN) (s.n - s.rdN)

/-- A token step writes the first token of enc of the input that is left, and leaves the input behind it as it was
(R108). -/
theorem State.Encoding.tokenStep {s : State} (h : s.Encoding) (hrd : s.rdN < s.n) :
    ∃ (bytes : List Byte) (rd wr : Word), engineStep s = .next (s.wrote (s.B + s.wrN) bytes rd wr) ∧
      (s.wrote (s.B + s.wrN) bytes rd wr).Encoding ∧ s.rdN < rd.toNat ∧ wr.toNat = s.wrN + bytes.length ∧
      enc s.inputLeft = bytes ++ enc (s.wrote (s.B + s.wrN) bytes rd wr).inputLeft := by
  have hstep := encodeTokenStep_next hrd h.wr_le h.present
  have hfirst := enc_readBytes s.mem (s.B + s.rdN) (s.n - s.rdN) (by omega)
  have hle := runlen_le s.mem (s.B + s.rdN) (s.n - s.rdN)
  have hpos := runlen_pos s.mem (s.B + s.rdN) (k := s.n - s.rdN) (by omega)
  generalize runlen s.mem (s.B + s.rdN) (s.n - s.rdN) = c at hstep hfirst hle hpos
  have hlen := length_emittedBytes_le hpos (Memory.readByte s.mem (s.B + s.rdN))
  generalize emittedBytes c (Memory.readByte s.mem (s.B + s.rdN)) = bytes at hstep hfirst hlen
  have hwr := h.wr_le
  have hn : s.n < 2 ^ 32 := toNat_lt_word s.latchLen
  have hrd' : (s.rd + BitVec.ofNat 32 c).toNat = s.rdN + c :=
    toNat_add_small (show s.rdN + c < 2 ^ 32 by omega)
  have hwr' : (s.wr + BitVec.ofNat 32 bytes.length).toNat = s.wrN + bytes.length :=
    toNat_add_small (show s.wrN + bytes.length < 2 ^ 32 by omega)
  generalize s.rd + BitVec.ofNat 32 c = rd at hstep hrd'
  generalize s.wr + BitVec.ofNat 32 bytes.length = wr at hstep hwr'
  have hleft : (s.wrote (s.B + s.wrN) bytes rd wr).inputLeft =
      Memory.readBytes s.mem (s.B + s.rdN + c) (s.n - s.rdN - c) := by
    have haddr : s.B + rd.toNat = s.B + s.rdN + c := by omega
    have hcount : s.n - rd.toNat = s.n - s.rdN - c := by omega
    show Memory.readBytes (Memory.writeBytes s.mem (s.B + s.wrN) bytes) (s.B + rd.toNat) (s.n - rd.toNat) = _
    rw [haddr, hcount]
    exact readBytes_congr fun b hb _ => readByte_writeBytes_of_outside h.canonical (by omega)
  refine ⟨bytes, rd, wr, (engineStep_encode h.active h.checked h.op hrd).trans hstep, ?_, by omega, hwr', ?_⟩
  · exact
      { active := h.active
        op := h.op
        checked := verdict_of_started (s := s.wrote (s.B + s.wrN) bytes rd wr) (by show rd.toNat ≠ 0; omega)
        noTurns := h.noTurns
        canonical := writeBytes_wf h.canonical _ _
        present := h.present
        rd_le := by show rd.toNat ≤ s.n; omega
        wr_le := by show wr.toNat ≤ rd.toNat; omega }
  · rw [hleft, ← hfirst, State.inputLeft]

/-- The rest of an ENCODE writes enc of the input that is left, and completes with RESULT = wr. -/
theorem State.Encoding.run {s : State} (h : s.Encoding) :
    ∃ (k : Nat) (w : Word), k ≤ s.n - s.rdN + 1 ∧ w.toNat = s.wrN + (enc s.inputLeft).length ∧
      core.run k s = .next ((s.wrote (s.B + s.wrN) (enc s.inputLeft) s.latchLen w).complete w) := by
  induction hd : s.n - s.rdN using Nat.strong_induction_on generalizing s with
  | _ d ih =>
    by_cases hrd : s.rdN < s.n
    · obtain ⟨bytes, rd, wr, hstep, hnext, hmore, hwr, henc⟩ := h.tokenStep hrd
      obtain ⟨k, w, hk, hw, hrun⟩ := ih (s.n - rd.toNat) (by omega) hnext rfl
      refine ⟨k + 1, w, by omega, ?_, ?_⟩
      · rw [hw, henc, List.length_append, ← Nat.add_assoc, ← hwr]
        rfl
      · have hbase : s.B + wr.toNat = s.B + s.wrN + bytes.length := by omega
        rw [run_succ h.noTurns hstep, hrun, henc, ← wrote_wrote s (s.B + s.wrN) bytes _ rd wr, ← hbase]
        rfl
    · have hend : s.rdN = s.n := Nat.le_antisymm h.rd_le (Nat.le_of_not_lt hrd)
      have hnone : enc s.inputLeft = [] := by
        rw [State.inputLeft, hend, Nat.sub_self]
        rfl
      have hlatch : s.latchLen = s.rd := BitVec.eq_of_toNat_eq hend.symm
      refine ⟨1, s.wr, by omega, by rw [hnone]; rfl, ?_⟩
      rw [hnone, hlatch, writeBytes_nil]
      exact run_consumed h.noTurns h.active h.checked (.inl h.op) hend

/-- An accepted ENCODE whose checks pass is about to run, with its whole input left. -/
theorem accept_encoding {s : State} (hsched : s.schedule = []) (hm : Memory.wf s.mem)
    (hchecks : (s.accept .enc).encodeChecks = .proceed) : (s.accept .enc).Encoding where
  active := rfl
  op := rfl
  checked := hchecks
  noTurns := hsched
  canonical := hm
  present := ((encodeArgsOk_iff _).1 (encodeChecks_proceed hchecks).1).2
  rd_le := Nat.zero_le _
  wr_le := Nat.le_refl _

/-- Settles O42: the run of `State.Encoding.run`, from the state that acceptance answers. -/
theorem encodeFunctionalForm : Obligations.EncodeFunctionalForm := by
  intro s input hb hsched hm hchecks hinput
  refine ⟨by rw [exec_encode, State.command_of_ready hb], ?_⟩
  obtain ⟨k, w, hk, hw, hrun⟩ := (accept_encoding hsched hm hchecks).run
  have hleft : (s.accept .enc).inputLeft = input := hinput.symm
  rw [hleft] at hw hrun
  refine ⟨k, _, hk, hrun, rfl, rfl, rfl, rfl, ?_, ?_⟩
  · exact hw.trans (Nat.zero_add _)
  · exact fun a => readByte_writeBytes hm s.srcAddr.toNat a (enc input)

end Sys2Proof.Machine
end

section
/-! SUPPORT. The recursion of dec (R144) token by token: what a token that fits contributes, what one that does not leaves
behind, and when the whole recursion succeeds (R148). -/

namespace Sys2Proof

/-- Only a run header that is the last byte keeps a stream that has a byte left from decoding (R85). -/
theorem decodeToken_eq_error {bytes : List Byte} {e : DecodeError} (hne : bytes ≠ [])
    (h : decodeToken bytes = .error e) : ∃ b, isRunHeader b = true ∧ bytes = [b] := by
  cases bytes with
  | nil => exact absurd rfl hne
  | cons b rest =>
    cases hb : isRunHeader b with
    | false => rw [decodeToken_lit hb] at h; cases h
    | true =>
      cases rest with
      | nil => exact ⟨b, hb, rfl⟩
      | cons v rest => rw [decodeToken_run hb] at h; cases h

/-- A token takes two bytes at most, so two bytes of the stream show it (R81). -/
theorem decodeToken_take_two {bytes rest : List Byte} {i : Instr} (h : decodeToken bytes = .ok (i, rest)) :
    ∃ after, decodeToken (bytes.take 2) = .ok (i, after) := by
  rcases decodeToken_eq_ok h with ⟨b, hb, rfl, rfl⟩ | ⟨b, v, hb, rfl, rfl⟩
  · exact ⟨_, decodeToken_lit hb _⟩
  · exact ⟨_, decodeToken_run hb v _⟩

/-- Induction along the tokens of a stream, which ends after a token or in a truncated header. -/
theorem stream_induction {P : List Byte → Prop} (empty : P []) (truncated : ∀ b, isRunHeader b = true → P [b])
    (token : ∀ i rest, i.isToken = true → i.wellFormed = true → P rest → P (tokenBytes i ++ rest))
    (stream : List Byte) : P stream := by
  induction hn : stream.length using Nat.strong_induction_on generalizing stream with
  | _ n ih =>
    by_cases hne : stream = []
    case pos => exact hne ▸ empty
    cases htoken : decodeToken stream with
    | error e =>
      obtain ⟨b, hb, rfl⟩ := decodeToken_eq_error hne htoken
      exact truncated b hb
    | ok first =>
      obtain ⟨i, rest⟩ := first
      obtain ⟨htok, hwf, rfl⟩ := tokenBytes_of_decodeToken htoken
      have hpos := tokenBytes_length_pos htok
      rw [List.length_append] at hn
      exact token i rest htok hwf (ih rest.length (by omega) rest rfl)

end Sys2Proof

namespace Sys2Proof.Machine

/-! ### What a token writes -/

/-- The bytes that a token stands for (R140, R141). -/
def tokenOutput : Instr → List Byte
  | .lit v => [v]
  | .run c v => List.replicate c.toNat v
  | .encode => []
  | .decode => []

@[simp] theorem length_tokenOutput (i : Instr) : (tokenOutput i).length = outputCount i := by
  cases i <;> simp [tokenOutput, outputCount]

/-- The bytes that a token leaves behind when its output does not fit the `room` that is left (R141). -/
def overflowOutput (mode : OvfCheck) (room : Nat) : Instr → List Byte
  | .run _ v =>
    match mode with
    | .run => []
    | .byte => List.replicate room v
  | .lit _ => []
  | .encode => []
  | .decode => []

theorem length_overflowOutput_le (mode : OvfCheck) (room : Nat) (i : Instr) :
    (overflowOutput mode room i).length ≤ room := by
  cases i <;> cases mode <;> simp [overflowOutput]

/-! ### One token of the recursion -/

section Recursion

variable (mode : OvfCheck) (cap : Nat)

theorem decGo_nil (acc : List Byte) : decGo mode cap [] acc = (.noError, acc) := rfl

theorem decGo_truncated {b : Byte} (hb : isRunHeader b = true) (acc : List Byte) :
    decGo mode cap [b] acc = (.truncatedStream, acc) := by
  simp [decGo, hb]

theorem decGo_run {b : Byte} (hb : isRunHeader b = true) (v : Byte) (rest acc : List Byte) :
    decGo mode cap (b :: v :: rest) acc =
      if acc.length + (headerCount b).toNat > cap then
        (.outputOverflow, acc ++ overflowOutput mode (cap - acc.length) (.run (headerCount b) v))
      else decGo mode cap rest (acc ++ List.replicate (headerCount b).toNat v) := by
  rw [decGo.eq_def]
  cases mode <;> simp [hb, overflowOutput]

/-- A token whose output fits. -/
theorem decGo_token_fits {i : Instr} (htok : i.isToken = true) (hwf : i.wellFormed = true) {acc : List Byte}
    (hcap : acc.length + outputCount i ≤ cap) (rest : List Byte) :
    decGo mode cap (tokenBytes i ++ rest) acc = decGo mode cap rest (acc ++ tokenOutput i) := by
  cases i with
  | lit v => exact (decGo_lit mode cap (isRunHeader_of_lit_wellFormed hwf) rest acc).trans (if_neg (Nat.not_lt.2 hcap))
  | run c v =>
    have hrun := decGo_run mode cap (isRunHeader_runHeader c) v rest acc
    rw [headerCount_runHeader] at hrun
    exact hrun.trans (if_neg (Nat.not_lt.2 hcap))
  | encode => simp [Instr.isToken] at htok
  | decode => simp [Instr.isToken] at htok

/-- A token whose output does not fit. -/
theorem decGo_token_overflow {i : Instr} (htok : i.isToken = true) (hwf : i.wellFormed = true) {acc : List Byte}
    (hcap : cap < acc.length + outputCount i) (rest : List Byte) :
    decGo mode cap (tokenBytes i ++ rest) acc =
      (.outputOverflow, acc ++ overflowOutput mode (cap - acc.length) i) := by
  cases i with
  | lit v =>
    refine (decGo_lit mode cap (isRunHeader_of_lit_wellFormed hwf) rest acc).trans ((if_pos hcap).trans ?_)
    simp [overflowOutput]
  | run c v =>
    have hrun := decGo_run mode cap (isRunHeader_runHeader c) v rest acc
    rw [headerCount_runHeader] at hrun
    exact hrun.trans (if_pos hcap)
  | encode => simp [Instr.isToken] at htok
  | decode => simp [Instr.isToken] at htok

/-! ### Many tokens -/

/-- Tokens whose outputs fit write what they stand for, and the recursion goes on behind them. -/
theorem decGo_assemble {tokens : List Instr} (h : ∀ i ∈ tokens, i.isToken = true ∧ i.wellFormed = true)
    {acc : List Byte} (hcap : acc.length + (tokens.map outputCount).sum ≤ cap) (rest : List Byte) :
    decGo mode cap (assemble tokens ++ rest) acc = decGo mode cap rest (acc ++ tokens.flatMap tokenOutput) := by
  induction tokens generalizing acc with
  | nil => simp
  | cons i tokens ih =>
    obtain ⟨⟨htok, hwf⟩, hrest⟩ := List.forall_mem_cons.1 h
    rw [List.map_cons, List.sum_cons] at hcap
    rw [assemble_cons, List.append_assoc, decGo_token_fits mode cap htok hwf (by omega),
      ih hrest (by rw [List.length_append, length_tokenOutput]; omega), List.flatMap_cons, List.append_assoc]

/-- The recursion succeeds only on the bytes of tokens whose outputs fit. -/
theorem assemble_of_decGo_noError {stream acc : List Byte} (hacc : acc.length ≤ cap)
    (h : (decGo mode cap stream acc).1 = .noError) :
    ∃ tokens, (∀ i ∈ tokens, i.isToken = true ∧ i.wellFormed = true) ∧ assemble tokens = stream ∧
      acc.length + (tokens.map outputCount).sum ≤ cap := by
  induction stream using stream_induction generalizing acc with
  | empty => exact ⟨[], by simp, rfl, by simpa using hacc⟩
  | truncated b hb =>
    rw [decGo_truncated mode cap hb] at h
    cases h
  | token i rest htok hwf ih =>
    by_cases hcap : acc.length + outputCount i ≤ cap
    · rw [decGo_token_fits mode cap htok hwf hcap] at h
      obtain ⟨tokens, htokens, hbytes, hsum⟩ := ih (by rwa [List.length_append, length_tokenOutput]) h
      refine ⟨i :: tokens, List.forall_mem_cons.2 ⟨⟨htok, hwf⟩, htokens⟩, by rw [assemble_cons, hbytes], ?_⟩
      rw [List.length_append, length_tokenOutput] at hsum
      rwa [List.map_cons, List.sum_cons, ← Nat.add_assoc]
    · rw [decGo_token_overflow mode cap htok hwf (Nat.lt_of_not_le hcap)] at h
      cases h

/-- The recursion succeeds exactly when the stream parses into tokens whose outputs fit (R148). -/
theorem decGo_noError_iff {stream acc : List Byte} (hacc : acc.length ≤ cap) :
    (decGo mode cap stream acc).1 = .noError ↔
      ∃ tokens, decodeStream stream = .ok tokens ∧ acc.length + (tokens.map outputCount).sum ≤ cap := by
  constructor
  · intro h
    obtain ⟨tokens, htokens, hbytes, hsum⟩ := assemble_of_decGo_noError mode cap hacc h
    exact ⟨tokens, decodeStream_eq_ok_iff.2 ⟨htokens, hbytes⟩, hsum⟩
  · rintro ⟨tokens, htokens, hsum⟩
    obtain ⟨hwf, rfl⟩ := decodeStream_eq_ok_iff.1 htokens
    have hgo := decGo_assemble mode cap hwf hsum []
    rw [List.append_nil] at hgo
    rw [hgo, decGo_nil]

/-- What has been written stays written. -/
theorem prefix_decGo (stream acc : List Byte) : acc <+: (decGo mode cap stream acc).2 := by
  induction stream using stream_induction generalizing acc with
  | empty => exact List.prefix_refl acc
  | truncated b hb => rw [decGo_truncated mode cap hb]
  | token i rest htok hwf ih =>
    by_cases hcap : acc.length + outputCount i ≤ cap
    · rw [decGo_token_fits mode cap htok hwf hcap]
      exact (List.prefix_append acc _).trans (ih _)
    · rw [decGo_token_overflow mode cap htok hwf (Nat.lt_of_not_le hcap)]
      exact List.prefix_append acc _

end Recursion

end Sys2Proof.Machine
end

section
/-! SUPPORT. The run of a DECODE past its checks: each token step does what one turn of dec's recursion does (R139, R144),
and the run ends with the outcome of the recursion on the stream that is left. -/

namespace Sys2Proof.Machine

/-! ### The tokens as dec has them -/

theorem exec_token_fits {s : State} {i : Instr} (htok : i.isToken = true)
    (hrd : s.rdN + (tokenBytes i).length ≤ s.tlen) (hcap : s.wrN + outputCount i ≤ s.cap)
    (hmem : s.D + s.cap ≤ s.cfg.memSize) :
    exec i s = .next (s.wrote (s.D + s.wrN) (tokenOutput i) (s.rd + BitVec.ofNat 32 (tokenBytes i).length)
      (s.wr + BitVec.ofNat 32 (outputCount i))) := by
  cases i with
  | lit v =>
    simp only [outputCount] at hcap
    exact execLit_fits hcap (by omega)
  | run c v =>
    simp only [outputCount, tokenBytes, List.length_cons, List.length_nil] at hcap hrd
    exact execRun_fits (by omega) hcap (by omega)
  | encode => simp [Instr.isToken] at htok
  | decode => simp [Instr.isToken] at htok

theorem exec_token_overflow {s : State} {i : Instr} (htok : i.isToken = true)
    (hrd : s.rdN + (tokenBytes i).length ≤ s.tlen) (hwr : s.wrN ≤ s.cap) (hcap : s.cap < s.wrN + outputCount i)
    (hmem : s.D + s.cap ≤ s.cfg.memSize) :
    ∃ w, exec i s = .next
      ((s.wrote (s.D + s.wrN) (overflowOutput s.cfg.decOvfCheck (s.cap - s.wrN) i) s.rd w).fail .outputOverflow) := by
  cases i with
  | lit v => exact ⟨s.wr, execLit_overflow hcap⟩
  | run c v =>
    simp only [outputCount, tokenBytes, List.length_cons, List.length_nil] at hcap hrd
    cases hmode : s.cfg.decOvfCheck with
    | run => exact ⟨s.wr, execRun_overflow_run hmode (by omega) hcap⟩
    | byte => exact ⟨s.latchCap, execRun_overflow_byte hmode (by omega) hwr hcap hmem⟩
  | encode => simp [Instr.isToken] at htok
  | decode => simp [Instr.isToken] at htok

/-! ### DECODE -/

/-- A DECODE past its checks, with no turns left: what each of its token steps keeps. -/
structure State.Decoding (s : State) : Prop where
  active : s.phase = .active
  op : s.op = .dec
  checks : s.decodeChecks = .proceed
  noTurns : s.schedule = []
  canonical : Memory.wf s.mem
  rd_le : s.rdN ≤ s.tlen
  wr_le : s.wrN ≤ s.cap

/-- The stream that DECODE has not read yet. -/
def State.streamLeft (s : State) : List Byte := Memory.readBytes s.mem (s.T + s.rdN) (s.tlen - s.rdN)

/-- The recursion of dec on the stream that is left, after the output `acc` (R144). -/
def State.decLeft (s : State) (acc : List Byte) : ErrCode × List Byte :=
  decGo s.cfg.decOvfCheck s.cap s.streamLeft acc

/-- What a token step of DECODE does, beside the recursion of dec. -/
inductive DecodeStep (s : State) (acc : List Byte) : State → Prop where
  /-- the token is executed, and the recursion goes on (R140, R141) -/
  | advances (bytes : List Byte) (rd wr : Word) (hnext : (s.wrote (s.D + s.wrN) bytes rd wr).Decoding)
      (hrd : s.rdN < rd.toNat) (hwr : wr.toNat = s.wrN + bytes.length)
      (hdec : s.decLeft acc = (s.wrote (s.D + s.wrN) bytes rd wr).decLeft (acc ++ bytes)) :
      DecodeStep s acc (s.wrote (s.D + s.wrN) bytes rd wr)
  /-- DECODE fails, and so does the recursion (R141, R176) -/
  | stops (e : ErrCode) (bytes : List Byte) (w : Word) (he : e ≠ .noError) (hcap : s.wrN + bytes.length ≤ s.cap)
      (hdec : s.decLeft acc = (e, acc ++ bytes)) :
      DecodeStep s acc ((s.wrote (s.D + s.wrN) bytes s.rd w).fail e)

section Steps

variable {s : State} (h : s.Decoding)
include h

theorem State.Decoding.verdict : s.verdict = .proceed := by
  by_cases h0 : s.rdN = 0
  · simpa only [State.verdict, h0, if_true, h.op] using h.checks
  · exact verdict_of_started h0

theorem State.Decoding.regions :
    s.tlen ≠ 0 ∧ s.T + s.tlen ≤ s.cfg.memSize ∧ s.D + s.cap ≤ s.cfg.memSize :=
  (decodeArgsOk_iff s).1 (decodeChecks_proceed h.checks).1

/-- A write to the output leaves the stream behind the new read cursor as it was (R68). -/
theorem State.Decoding.streamLeft_wrote {bytes : List Byte} (hcap : s.wrN + bytes.length ≤ s.cap) {k : Nat}
    {rd : Word} (hrd : rd.toNat = s.rdN + k) (wr : Word) :
    (s.wrote (s.D + s.wrN) bytes rd wr).streamLeft = s.streamLeft.drop k := by
  obtain ⟨-, hdisjoint, -⟩ := decodeChecks_proceed h.checks
  have haddr : s.T + rd.toNat = s.T + s.rdN + k := by omega
  have hcount : s.tlen - rd.toNat = s.tlen - s.rdN - k := by omega
  rw [State.streamLeft, State.streamLeft, readBytes_drop]
  show Memory.readBytes (Memory.writeBytes s.mem (s.D + s.wrN) bytes) (s.T + rd.toNat) (s.tlen - rd.toNat) = _
  rw [haddr, hcount]
  refine readBytes_congr fun b hlo hhi => readByte_writeBytes_of_outside h.canonical ?_
  have hout : ¬((s.T ≤ b ∧ b < s.T + s.tlen) ∧ (s.D ≤ b ∧ b < s.D + s.cap)) := regionsOverlap_eq_false hdisjoint b
  omega

/-- The step at a token: it advances if its output fits, else it stops. -/
theorem State.Decoding.step_token {acc rest : List Byte} {i : Instr} (hacc : acc.length = s.wrN)
    (htok : i.isToken = true) (hwf : i.wellFormed = true) (hstream : s.streamLeft = tokenBytes i ++ rest)
    (hstep : engineStep s = exec i s) : ∃ t, engineStep s = .next t ∧ DecodeStep s acc t := by
  obtain ⟨-, -, hD⟩ := h.regions
  have hwr := h.wr_le
  have hpos := tokenBytes_length_pos htok
  have hlen := congrArg List.length hstream
  rw [State.streamLeft, length_readBytes, List.length_append] at hlen
  have htlen : s.tlen < 2 ^ 32 := toNat_lt_word s.latchLen
  have hcap32 : s.cap < 2 ^ 32 := toNat_lt_word s.latchCap
  by_cases hcap : s.wrN + outputCount i ≤ s.cap
  · have hrd' : (s.rd + BitVec.ofNat 32 (tokenBytes i).length).toNat = s.rdN + (tokenBytes i).length :=
      toNat_add_small (show s.rdN + (tokenBytes i).length < 2 ^ 32 by omega)
    have hwr' : (s.wr + BitVec.ofNat 32 (outputCount i)).toNat = s.wrN + outputCount i :=
      toNat_add_small (show s.wrN + outputCount i < 2 ^ 32 by omega)
    rw [hstep, exec_token_fits htok (by omega) hcap hD]
    generalize s.rd + BitVec.ofNat 32 (tokenBytes i).length = rd at hrd'
    generalize s.wr + BitVec.ofNat 32 (outputCount i) = wr at hwr'
    have hleft := h.streamLeft_wrote (bytes := tokenOutput i) (by rwa [length_tokenOutput]) hrd' wr
    rw [hstream, List.drop_left] at hleft
    refine ⟨_, rfl, .advances (tokenOutput i) rd wr ?_ (by omega) (by rwa [length_tokenOutput]) ?_⟩
    · exact
        { active := h.active
          op := h.op
          checks := h.checks
          noTurns := h.noTurns
          canonical := writeBytes_wf h.canonical _ _
          rd_le := by show rd.toNat ≤ s.tlen; omega
          wr_le := by show wr.toNat ≤ s.cap; omega }
    · rw [State.decLeft, State.decLeft, hleft, hstream]
      exact decGo_token_fits _ _ htok hwf (by omega) rest
  · obtain ⟨w, hexec⟩ := exec_token_overflow htok (by omega) hwr (Nat.lt_of_not_le hcap) hD
    have hroom := length_overflowOutput_le s.cfg.decOvfCheck (s.cap - s.wrN) i
    refine ⟨_, hstep.trans hexec, .stops .outputOverflow _ w (by decide) (by omega) ?_⟩
    rw [State.decLeft, hstream, ← hacc]
    exact decGo_token_overflow _ _ htok hwf (by omega) rest

/-- A token step of DECODE and a turn of dec's recursion do the same (R139, R144). -/
theorem State.Decoding.tokenStep {acc : List Byte} (hacc : acc.length = s.wrN) (hrd : s.rdN < s.tlen) :
    ∃ t, engineStep s = .next t ∧ DecodeStep s acc t := by
  obtain ⟨-, hT, -⟩ := h.regions
  have hwindow : s.tokenWindow = s.streamLeft.take 2 := readBytes_min _ _ _ _
  have hne : s.streamLeft ≠ [] := by
    rw [ne_eq, ← List.length_eq_zero_iff, State.streamLeft, length_readBytes]
    omega
  cases htoken : decodeToken s.streamLeft with
  | ok token =>
    obtain ⟨i, rest⟩ := token
    obtain ⟨htok, hwf, hstream⟩ := tokenBytes_of_decodeToken htoken
    obtain ⟨after, hafter⟩ := decodeToken_take_two htoken
    rw [← hwindow] at hafter
    exact h.step_token hacc htok hwf hstream.symm (engineStep_token h.active h.op h.verdict hrd hT hafter)
  | error e =>
    obtain ⟨b, hb, hstream⟩ := decodeToken_eq_error hne htoken
    have herror : decodeToken s.tokenWindow = .error .truncatedRun := by
      rw [hwindow, hstream]
      exact decodeToken_truncated hb
    refine ⟨_, engineStep_no_token h.active h.op h.verdict hrd hT herror, ?_⟩
    refine .stops .truncatedStream [] s.wr (by decide) h.wr_le ?_
    rw [State.decLeft, hstream, decGo_truncated _ _ hb, List.append_nil]

end Steps

/-! ### The run -/

/-- The end of a DECODE that wrote `out` from D + wr upward on its way from `s` (R142, R175, R176). -/
structure DecodeEnd (s : State) (e : ErrCode) (out : List Byte) (t : State) : Prop where
  idle : t.phase = .idle
  status : t.status = Status.completed e
  success : e = .noError → t.result.toNat = s.wrN + out.length
  failure : e ≠ .noError → t.result = 0xFFFFFFFF#32
  fits : s.wrN + out.length ≤ s.cap
  mem : t.mem = Memory.writeBytes s.mem (s.D + s.wrN) out

/-- The end of a DECODE, seen from before a token that wrote `bytes`. -/
theorem DecodeEnd.of_wrote {s t : State} {e : ErrCode} {bytes out : List Byte} {rd wr : Word}
    (hwr : wr.toNat = s.wrN + bytes.length) (h : DecodeEnd (s.wrote (s.D + s.wrN) bytes rd wr) e out t) :
    DecodeEnd s e (bytes ++ out) t where
  idle := h.idle
  status := h.status
  success := fun he => by rw [h.success he, List.length_append, ← Nat.add_assoc, ← hwr]; rfl
  failure := h.failure
  fits := by rw [List.length_append, ← Nat.add_assoc, ← hwr]; exact h.fits
  mem := by
    have haddr : s.D + wr.toNat = s.D + s.wrN + bytes.length := by omega
    rw [writeBytes_append, ← haddr]
    exact h.mem

/-- The rest of a DECODE ends as the recursion of dec on the stream that is left does. -/
theorem State.Decoding.run {s : State} (h : s.Decoding) {acc : List Byte} (hacc : acc.length = s.wrN) :
    ∃ (k : Nat) (e : ErrCode) (out : List Byte) (t : State), k ≤ s.tlen - s.rdN + 1 ∧
      s.decLeft acc = (e, acc ++ out) ∧ core.run k s = .next t ∧ DecodeEnd s e out t := by
  induction hd : s.tlen - s.rdN using Nat.strong_induction_on generalizing s acc with
  | _ d ih =>
    by_cases hrd : s.rdN < s.tlen
    · obtain ⟨u, hstep, heffect⟩ := h.tokenStep hacc hrd
      cases heffect with
      | advances bytes rd wr hnext hmore hwr hdec =>
        obtain ⟨k, e, out, t, hk, hgo, hrun, hend⟩ :=
          ih (s.tlen - rd.toNat) (by omega) hnext (acc := acc ++ bytes)
            (by rw [List.length_append, hacc]; exact hwr.symm) rfl
        refine ⟨k + 1, e, bytes ++ out, t, by omega, ?_, ?_, hend.of_wrote hwr⟩
        · rw [hdec, hgo, List.append_assoc]
        · rw [run_succ h.noTurns hstep, hrun]
      | stops e bytes w he hcap hdec =>
        refine ⟨1, e, bytes, _, by omega, hdec, run_succ h.noTurns hstep 0, ?_⟩
        exact
          { idle := rfl
            status := rfl
            success := fun hok => absurd hok he
            failure := fun _ => by rw [State.fail_result, State.wrote_op, h.op]; rfl
            fits := hcap
            mem := rfl }
    · have hend : s.rdN = s.tlen := Nat.le_antisymm h.rd_le (Nat.le_of_not_lt hrd)
      have hnone : s.streamLeft = [] := by
        rw [State.streamLeft, hend, Nat.sub_self]
        rfl
      refine ⟨1, .noError, [], _, by omega, ?_, run_consumed h.noTurns h.active h.verdict (.inr h.op) hend, ?_⟩
      · rw [State.decLeft, hnone, decGo_nil, List.append_nil]
      · exact
          { idle := rfl
            status := rfl
            success := fun _ => rfl
            failure := fun hne => absurd rfl hne
            fits := h.wr_le
            mem := rfl }

/-- An accepted DECODE whose checks pass is about to run, with its whole stream left. -/
theorem accept_decoding {s : State} (hsched : s.schedule = []) (hm : Memory.wf s.mem)
    (hchecks : (s.accept .dec).decodeChecks = .proceed) : (s.accept .dec).Decoding where
  active := rfl
  op := rfl
  checks := hchecks
  noTurns := hsched
  canonical := hm
  rd_le := Nat.zero_le _
  wr_le := Nat.zero_le _

/-- Settles O43: the run of `State.Decoding.run` with no output yet, from the state that acceptance answers. -/
theorem decodeFunctionalForm : Obligations.DecodeFunctionalForm := by
  intro s stream e out hb hsched hm hchecks hstream hdec
  refine ⟨by rw [exec_decode, State.command_of_ready hb], ?_⟩
  obtain ⟨k, e', out', t, hk, hgo, hrun, hend⟩ := (accept_decoding hsched hm hchecks).run (acc := []) rfl
  have hleft : (s.accept .dec).decLeft [] = (e, out) := by
    rw [hdec, hstream]
    rfl
  obtain ⟨rfl, rfl⟩ : e = e' ∧ out = out' := Prod.mk.inj (hleft.symm.trans hgo)
  have hwr : (s.accept .dec).wrN = 0 := rfl
  refine ⟨k, t, hk, hrun, hend.idle, by rw [hend.status]; rfl, by rw [hend.status]; rfl, by rw [hend.status]; rfl,
    fun he => ?_, hend.failure, ?_, fun a => ?_⟩
  · rw [hend.success he, hwr, Nat.zero_add]
  · have hfits := hend.fits
    rwa [hwr, Nat.zero_add] at hfits
  · rw [hend.mem]
    exact readByte_writeBytes hm s.dstAddr.toNat a out

end Sys2Proof.Machine
end

section
/-! SUPPORT. The engine's progress from a legal state, and the POLL loop that waits for it (R93, R220). -/

namespace Sys2Proof.Machine

/-- What an engine step does for the end of a running operation: it reaches it, comes nearer, or refuses (R220). -/
inductive Progress (s : State) : Result → Prop where
  | finishes (t : State) (hp : t.phase = .idle) (hdone : t.status.done = true) (hsched : t.schedule = s.schedule) :
      Progress s (.next t)
  | continues (t : State) (hp : t.phase = .active) (hsched : t.schedule = s.schedule)
      (hlen : t.latchLen = s.latchLen) (hrd : s.rdN < t.rdN) (hend : t.rdN ≤ s.latchLen.toNat) :
      Progress s (.next t)
  | refuses (r : Refusal) (hr : r = .overlappingRegions ∨ r = .deviceInRegion) : Progress s (.refused r)

theorem engineStep_progress {s : State} (hs : s.Inv) (hp : s.phase = .active) : Progress s (engineStep s) := by
  have hlen : s.latchLen.toNat < 2 ^ 32 := toNat_lt_word s.latchLen
  have hmove := engineStep_move hs
  generalize engineStep s = result at hmove
  cases hmove with
  | rests hidle => exact absurd (hp.symm.trans hidle) (by decide)
  | rejects | completes | stops => exact .finishes _ rfl rfl rfl
  | refuses r _ hv =>
    refine .refuses r ?_
    rcases (verdict_refuse hv).2 with ⟨-, -, hr⟩ | ⟨-, -, hr⟩ | ⟨-, -, hr⟩
    exacts [.inl hr, .inr hr, .inr hr]
  | emits c v _ _ _ _ _ hpos _ hend _ =>
    change s.rdN + c ≤ s.latchLen.toNat at hend
    have hrd := rdN_wrote_add (s := s) (a := s.B + s.wrN) (bytes := emittedBytes c v)
      (w := s.wr + BitVec.ofNat 32 (emittedBytes c v).length) (k := c) (by omega)
    exact .continues _ hp rfl rfl (by omega) (by omega)
  | writes k bytes _ _ _ hk hend _ =>
    change s.rdN + k ≤ s.latchLen.toNat at hend
    have hrd := rdN_wrote_add (s := s) (a := s.D + s.wrN) (bytes := bytes)
      (w := s.wr + BitVec.ofNat 32 bytes.length) (k := k) (by omega)
    exact .continues _ hp rfl rfl (by omega) (by omega)

/-! ### Runs of the machine, step by step -/

theorem run_of_next {s t : State} (h : step s = .next t) (k : Nat) : core.run (k + 1) s = core.run k t := by
  have hcore : core.step s = .next t := h
  simp only [Host.Core.run, hcore]

theorem run_of_refused {s : State} {r : Refusal} (h : step s = .refused r) (k : Nat) :
    core.run (k + 1) s = .refused r := by
  have hcore : core.step s = .refused r := h
  simp only [Host.Core.run, hcore]

/-! ### POLL -/

/-- How a POLL ends, with `rest` behind it: with DONE = 1 observed, or in the operation's refusal. -/
def PollEnds (rest : List Turn) (r : Result) : Prop :=
  (∃ t, r = .next t ∧ t.schedule = rest ∧ t.status.done = true ∧ t.observed = some (.word t.status.word)) ∨
    (∃ e, r = .refused e ∧ (e = .overlappingRegions ∨ e = .deviceInRegion))

/-- The round that reads DONE = 1 is the last one. -/
theorem pollEnds_of_done {s : State} {rest : List Turn} (hsched : s.schedule = .poll :: rest)
    (hdone : s.status.done = true) : PollEnds rest (core.run 1 s) := by
  have hstep := (step_of_poll_turn hsched).trans (pollStep_of_done rest hdone)
  exact .inl ⟨_, run_of_next hstep 0, rfl, hdone, rfl⟩

theorem done_of_active {s : State} (hs : s.Inv) (hp : s.phase = .active) : s.status.done = false :=
  Bool.eq_false_of_not_eq_true fun hdone => hs.busyDone ⟨hs.busyActive.2 hp, hdone⟩

/-- POLL ends within a round for each byte of input left, one for the completion and one that reads DONE = 1. -/
theorem poll_ends {s : State} {rest : List Turn} (hs : s.Inv) (hp : s.phase = .active)
    (hsched : s.schedule = .poll :: rest) :
    ∃ k, k ≤ s.latchLen.toNat - s.rdN + 2 ∧ PollEnds rest (core.run k s) := by
  induction hd : s.latchLen.toNat - s.rdN using Nat.strong_induction_on generalizing s with
  | _ d ih =>
    have hobserve : (s.observe (.word s.status.word)).Inv := hs.observe _
    have hround : step s = engineStep (s.observe (.word s.status.word)) :=
      (step_of_poll_turn hsched).trans (pollStep_of_not_done rest (done_of_active hs hp))
    have hprogress := engineStep_progress hobserve hp
    cases hstep : engineStep (s.observe (.word s.status.word)) with
    | next t =>
      rw [hstep] at hround hprogress
      cases hprogress with
      | finishes _ hidle hdone hsame =>
        refine ⟨2, by omega, ?_⟩
        rw [run_of_next hround]
        exact pollEnds_of_done (hsame.trans hsched) hdone
      | continues _ hactive hsame hlen hrd hend =>
        have hless : t.latchLen.toNat - t.rdN < d := by
          rw [hlen]
          simp only [State.rdN, State.observe] at hrd hend hd ⊢
          omega
        obtain ⟨k, hk, hends⟩ :=
          ih _ hless (engineStep_keeps_inv hobserve hstep) hactive (hsame.trans hsched) rfl
        refine ⟨k + 1, by omega, ?_⟩
        rw [run_of_next hround]
        exact hends
    | fault e => rw [hstep] at hprogress; cases hprogress
    | refused r =>
      rw [hstep] at hround hprogress
      cases hprogress with
      | refuses _ hr => exact ⟨1, by omega, .inr ⟨r, run_of_refused hround 0, hr⟩⟩

/-- Settles O54: the rounds of `poll_ends`, from wherever the read cursor stands. -/
theorem pollTerminates : Obligations.PollTerminates := by
  intro s rest hs hp hsched
  obtain ⟨k, hk, hends⟩ := poll_ends hs hp hsched
  exact ⟨k, by omega, hends⟩

end Sys2Proof.Machine
end

section
/-! SUPPORT. The encoder's emissions as tokens of the format: what they stand for, their counts, and that neighbours have
different values (R87, R109). -/

namespace Sys2Proof

theorem toNat_runHeader (c : BitVec 7) : (runHeader c).toNat = 0x80 + c.toNat := by revert c; decide

end Sys2Proof

namespace Sys2Proof.Machine

/-! ### One emission -/

/-- The token that an emission is written as. -/
def Emission.token : Emission → Instr
  | .lit v => .lit v
  | .run c v => .run (BitVec.ofNat 7 c) v

/-- The byte that an emission repeats. -/
def Emission.value : Emission → Byte
  | .lit v => v
  | .run _ v => v

/-- The input bytes that an emission stands for. -/
def Emission.expand (e : Emission) : List Byte := List.replicate e.count e.value

/-- The counts that the encoder emits run tokens for (R106, R107). -/
def Emission.Counted : Emission → Prop
  | .lit _ => True
  | .run c _ => 2 ≤ c ∧ c ≤ 127

/-- `y` may follow `x`: the encoder ends a run below the largest count only at a different byte (R87). -/
def Emission.Apart (x y : Emission) : Prop := x.count < 127 → y.value ≠ x.value

theorem Emission.bytes_eq_tokenBytes (e : Emission) : e.bytes = tokenBytes e.token := by
  cases e <;> rfl

theorem flatMap_bytes (es : List Emission) : es.flatMap Emission.bytes = assemble (es.map Emission.token) := by
  rw [assemble, List.flatMap_map]
  exact congrArg (List.flatMap · es) (funext Emission.bytes_eq_tokenBytes)

/-- enc writes its emissions as tokens one after the other (R109). -/
theorem enc_eq_assemble (input : List Byte) : enc input = assemble ((emissions input).map Emission.token) :=
  flatMap_bytes _

theorem toNat_ofNat_count {c : Nat} (h : c ≤ 127) : (BitVec.ofNat 7 c).toNat = c := by
  rw [BitVec.toNat_ofNat]
  exact Nat.mod_eq_of_lt (by omega)

theorem Emission.outputCount_token {e : Emission} (h : e.Counted) : outputCount e.token = e.count := by
  cases e with
  | lit v => rfl
  | run c v => exact toNat_ofNat_count h.2

theorem Emission.tokenOutput_token {e : Emission} (h : e.Counted) : tokenOutput e.token = e.expand := by
  cases e with
  | lit v => rfl
  | run c v => exact congrArg (List.replicate · v) (toNat_ofNat_count h.2)

theorem Emission.eq_lit_of_token {e : Emission} {v : Byte} (h : e.token = .lit v) : e = .lit v := by
  cases e with
  | lit u => cases h; rfl
  | run c u => cases h

theorem Emission.eq_run_of_token {e : Emission} {c : BitVec 7} {v : Byte} (h : e.token = .run c v) :
    ∃ k, e = .run k v ∧ c = BitVec.ofNat 7 k := by
  cases e with
  | lit u => cases h
  | run k u => cases h; exact ⟨k, rfl, rfl⟩

/-- Emissions whose literals are in the safe domain are written as well-formed tokens. -/
theorem token_wellFormed {es : List Emission} (h : ∀ v, Emission.lit v ∈ es → v.toNat < 0x80) :
    ∀ i ∈ es.map Emission.token, i.isToken = true ∧ i.wellFormed = true := by
  intro i hi
  obtain ⟨e, he, rfl⟩ := List.mem_map.1 hi
  cases e with
  | lit v => exact ⟨rfl, decide_eq_true (h v he)⟩
  | run c v => exact ⟨rfl, rfl⟩

/-! ### The emissions of an input -/

/-- The emission for a run of `c` copies of `v` has that count, that value and, for `c` within its bounds, is counted. -/
theorem emission_of_run {c : Nat} (v : Byte) (hpos : 1 ≤ c) (hle : c ≤ 127) :
    (if c = 1 then Emission.lit v else .run c v).count = c ∧
      (if c = 1 then Emission.lit v else .run c v).value = v ∧
      (if c = 1 then Emission.lit v else .run c v).Counted := by
  split
  case isTrue hone => exact ⟨hone.symm, rfl, trivial⟩
  case isFalse hmore => exact ⟨rfl, rfl, by omega, hle⟩

theorem counted_of_mem_emissions {input : List Byte} {e : Emission} (h : e ∈ emissions input) : e.Counted := by
  induction input using emit_induction with
  | h0 => cases h
  | h1 v rest c hc hpos hle _ _ ih =>
    rw [emissions_cons, ← hc, List.mem_cons] at h
    rcases h with rfl | h
    · exact (emission_of_run v hpos hle).2.2
    · exact ih h

theorem count_of_run_mem_emissions {input : List Byte} {c : Nat} {v : Byte} (h : Emission.run c v ∈ emissions input) :
    2 ≤ c ∧ c ≤ 127 := counted_of_mem_emissions h

/-- The emissions stand for the input, run by run (R109). -/
theorem flatMap_expand_emissions (input : List Byte) : (emissions input).flatMap Emission.expand = input := by
  induction input using emit_induction with
  | h0 => rfl
  | h1 v rest c hc hpos hle _ hsplit ih =>
    obtain ⟨hcount, hvalue, -⟩ := emission_of_run v hpos hle
    rw [emissions_cons, ← hc, List.flatMap_cons, ih, Emission.expand, hcount, hvalue]
    exact hsplit.symm

theorem length_flatMap_expand (es : List Emission) :
    (es.flatMap Emission.expand).length = (es.map Emission.count).sum := by
  simp [List.length_flatMap, Emission.expand]

/-- The first emission is for the first byte. -/
theorem head_emissions {input : List Byte} {e : Emission} (h : e ∈ (emissions input).head?) :
    input.head? = some e.value := by
  cases input with
  | nil => cases h
  | cons v rest =>
    have hbound := leadingRun_take_le v (v :: rest)
    rw [emissions_cons, List.head?_cons] at h
    cases h
    rw [(emission_of_run v (leadingRun_take_pos v rest) hbound.1).2.1]
    rfl

/-- A run that ends below the largest count ends at a different byte, or at the end of the input (R103). -/
theorem getElem?_leadingRun_take {v : Byte} {input : List Byte}
    (h : leadingRun v (input.take Config.maxCount) < 127) :
    input[leadingRun v (input.take Config.maxCount)]? ≠ some v := by
  intro hv
  obtain ⟨hin, hget⟩ := List.getElem?_eq_some_iff.1 hv
  have hlt : leadingRun v (input.take Config.maxCount) < (input.take Config.maxCount).length := by
    rw [List.length_take]
    exact lt_min h hin
  have hne := getElem_leadingRun hlt
  rw [List.getElem_take] at hne
  exact hne hget

theorem isChain_apart_emissions (input : List Byte) : (emissions input).IsChain Emission.Apart := by
  induction input using emit_induction with
  | h0 => exact .nil
  | h1 v rest c hc hpos hle _ _ ih =>
    obtain ⟨hcount, hvalue, -⟩ := emission_of_run v hpos hle
    rw [emissions_cons, ← hc, List.isChain_cons]
    refine ⟨fun y hy hlt hsame => ?_, ih⟩
    have hhead := head_emissions hy
    rw [List.head?_drop, hsame, hvalue, hc] at hhead
    rw [hcount, hc] at hlt
    exact getElem?_leadingRun_take hlt hhead

/-- Two neighbours among the emissions. -/
theorem apart_of_emissions {input : List Byte} {es rest : List Emission} {x y : Emission}
    (h : emissions input = es ++ x :: y :: rest) : x.Apart y := by
  have hchain := isChain_apart_emissions input
  rw [h, List.isChain_append_cons_cons] at hchain
  exact hchain.2.1

/-! ### The canonical stream -/

section Canonical

variable {input : List Byte}

theorem sum_outputCount_emissions :
    (((emissions input).map Emission.token).map outputCount).sum = input.length := by
  have hcounts : ((emissions input).map Emission.token).map outputCount = (emissions input).map Emission.count := by
    rw [List.map_map]
    exact List.map_congr_left fun e he => Emission.outputCount_token (counted_of_mem_emissions he)
  rw [hcounts, ← length_flatMap_expand, flatMap_expand_emissions]

theorem runHeader_of_mem_emissions {c : BitVec 7} {v : Byte}
    (h : Instr.run c v ∈ (emissions input).map Emission.token) : 0x82 ≤ (runHeader c).toNat := by
  obtain ⟨e, he, htoken⟩ := List.mem_map.1 h
  obtain ⟨k, rfl, rfl⟩ := Emission.eq_run_of_token htoken
  obtain ⟨hlo, hhi⟩ := count_of_run_mem_emissions he
  rw [toNat_runHeader, toNat_ofNat_count hhi]
  omega

theorem next_token_of_short_run {before after : List Instr} {c : BitVec 7} {v : Byte} {next : Instr}
    (h : (emissions input).map Emission.token = before ++ Instr.run c v :: next :: after) (hc : c.toNat < 127) :
    next ≠ Instr.lit v ∧ ∀ d, next ≠ Instr.run d v := by
  obtain ⟨es, tail, hes, -, htail⟩ := List.map_eq_append_iff.1 h
  obtain ⟨x, tail', rfl, hx, htail'⟩ := List.map_eq_cons_iff.1 htail
  obtain ⟨y, rest, rfl, rfl, -⟩ := List.map_eq_cons_iff.1 htail'
  obtain ⟨k, rfl, rfl⟩ := Emission.eq_run_of_token hx
  obtain ⟨-, hk⟩ := count_of_run_mem_emissions (input := input) (c := k) (v := v) (by rw [hes]; simp)
  rw [toNat_ofNat_count hk] at hc
  have hvalue : y.value ≠ v := apart_of_emissions hes hc
  refine ⟨fun hlit => hvalue ?_, fun d hrun => hvalue ?_⟩
  · rw [Emission.eq_lit_of_token hlit]; rfl
  · obtain ⟨j, rfl, -⟩ := Emission.eq_run_of_token hrun; rfl

/-- Settles O51, with the tokens of the emissions: they are counted, and neighbours are apart. -/
theorem encodedStreamIsCanonical : Obligations.EncodedStreamIsCanonical := by
  intro input hsafe
  refine ⟨(emissions input).map Emission.token, ?_, sum_outputCount_emissions, fun v hv => ?_,
    fun c v => runHeader_of_mem_emissions, fun before c v next after => next_token_of_short_run⟩
  · rw [enc_eq_assemble]
    exact decodeStream_assemble (token_wellFormed hsafe)
  · obtain ⟨e, he, htoken⟩ := List.mem_map.1 hv
    exact hsafe v (Emission.eq_lit_of_token htoken ▸ he)

end Canonical

end Sys2Proof.Machine
end

section
/-! SUPPORT. Literals outside the safe domain (R110): the decoder reads such a byte as a run header whose value is the next
token's first byte. -/

namespace Sys2Proof.Machine

theorem enc_singleton (v : Byte) : enc [v] = [v] := by
  simp [enc, emissions, emissionsFuel, leadingRun, Emission.bytes]

theorem enc_pair {v w : Byte} (h : w ≠ v) : enc [v, w] = [v, w] := by
  simp [enc, emissions, emissionsFuel, leadingRun, Emission.bytes, h]

/-- The input is what the first emissions stand for, and then what the others do. -/
theorem split_of_emissions {input : List Byte} {es tail : List Emission} (h : emissions input = es ++ tail) :
    input = input.take (es.map Emission.count).sum ++ tail.flatMap Emission.expand ∧
      input.take (es.map Emission.count).sum = es.flatMap Emission.expand := by
  have hinput := flatMap_expand_emissions input
  rw [h, List.flatMap_append] at hinput
  have htake : input.take (es.map Emission.count).sum = es.flatMap Emission.expand := by
    rw [← length_flatMap_expand, ← hinput, List.take_left]
  exact ⟨by rw [htake, hinput], htake⟩

theorem length_take_of_emissions {input : List Byte} {es tail : List Emission} (h : emissions input = es ++ tail) :
    (input.take (es.map Emission.count).sum).length = (es.map Emission.count).sum := by
  rw [(split_of_emissions h).2, length_flatMap_expand]

section Decoding

variable (mode : OvfCheck) (cap : Nat)

/-- Decoding enc of an input whose first emissions are in the safe domain and fit: dec writes what they stand for, and goes
on at the bytes of the others. -/
theorem dec_enc_of_emissions {input : List Byte} {es tail : List Emission} (h : emissions input = es ++ tail)
    (hsafe : ∀ u, Emission.lit u ∈ es → u.toNat < 0x80) (hcap : (es.map Emission.count).sum ≤ cap) :
    dec mode cap (enc input) =
      decGo mode cap (tail.flatMap Emission.bytes) (input.take (es.map Emission.count).sum) := by
  have hcounted : ∀ e ∈ es, e.Counted := fun e he => counted_of_mem_emissions (h ▸ List.mem_append_left tail he)
  have hcounts : (es.map Emission.token).map outputCount = es.map Emission.count := by
    rw [List.map_map]
    exact List.map_congr_left fun e he => Emission.outputCount_token (hcounted e he)
  have houtput : (es.map Emission.token).flatMap tokenOutput = es.flatMap Emission.expand := by
    rw [List.flatMap_map]
    exact List.flatMap_congr fun e he => Emission.tokenOutput_token (hcounted e he)
  have hgo := decGo_assemble mode cap (token_wellFormed hsafe) (acc := [])
    (by rw [hcounts, List.length_nil]; omega) (tail.flatMap Emission.bytes)
  rw [houtput, List.nil_append, ← (split_of_emissions h).2, ← flatMap_bytes, ← List.flatMap_append, ← h] at hgo
  exact hgo

/-- A literal outside the safe domain is read as a header whose count is its low seven bits (R83, R110). -/
theorem decGo_high_literal {v : Byte} (hv : 0x80 ≤ v.toNat) (b : Byte) (rest : List Byte) {acc : List Byte}
    (hcap : acc.length + v.toNat % 128 ≤ cap) :
    decGo mode cap (v :: b :: rest) acc = decGo mode cap rest (acc ++ List.replicate (v.toNat % 128) b) := by
  have hheader : isRunHeader v = true := by rw [isRunHeader_iff]; exact decide_eq_true hv
  rw [decGo_run mode cap hheader, toNat_headerCount, if_neg (Nat.not_lt.2 hcap)]

theorem decGo_high_literal_last {v : Byte} (hv : 0x80 ≤ v.toNat) (acc : List Byte) :
    decGo mode cap [v] acc = (.truncatedStream, acc) :=
  decGo_truncated mode cap (by rw [isRunHeader_iff]; exact decide_eq_true hv) acc

end Decoding

/-- The copies of `b` written for the literal `v` are not what `v` and the next emission stand for: where `b` is `v`, it is
the header of a run of at least two, and the second copy is not the run's value. -/
theorem not_prefix_of_high_literal {v b : Byte} {e : Emission} {more tail : List Byte} (hv : 0x80 < v.toNat)
    (hcounted : e.Counted) (hapart : e.value ≠ v) (hbytes : e.bytes = b :: more) :
    ¬List.replicate (v.toNat % 128) b <+: v :: (e.expand ++ tail) := by
  have hlt : v.toNat < 256 := v.isLt
  intro hprefix
  obtain ⟨n, hn⟩ : ∃ n, v.toNat % 128 = n + 1 := ⟨v.toNat % 128 - 1, by omega⟩
  rw [hn, List.replicate_succ, List.cons_prefix_cons] at hprefix
  obtain ⟨hb, hsecond⟩ := hprefix
  cases e with
  | lit u =>
    cases hbytes
    exact hapart hb
  | run c u =>
    obtain ⟨hlo, hhi⟩ : 2 ≤ c ∧ c ≤ 127 := hcounted
    have hheader : runHeader (BitVec.ofNat 7 c) = v := (List.cons.inj hbytes).1.trans hb
    have hvalue := congrArg BitVec.toNat hheader
    rw [toNat_runHeader, toNat_ofNat_count hhi] at hvalue
    obtain ⟨k, hk⟩ : ∃ k, n = k + 1 := ⟨n - 1, by omega⟩
    obtain ⟨j, hj⟩ : ∃ j, c = j + 1 := ⟨c - 1, by omega⟩
    have hexpand : (Emission.run c u).expand = u :: List.replicate j u := by
      rw [hj]
      rfl
    rw [hk, hexpand, List.replicate_succ, List.cons_append, List.cons_prefix_cons] at hsecond
    exact hapart (hsecond.1.symm.trans hb)

section BeforeToken

variable (mode : OvfCheck) {cap : Nat} {v b : Byte} {input more : List Byte} {es rest : List Emission} {e : Emission}
  (hv : 0x80 ≤ v.toNat) (h : emissions input = es ++ Emission.lit v :: e :: rest)
  (hsafe : ∀ u, Emission.lit u ∈ es → u.toNat < 0x80) (hbytes : e.bytes = b :: more)
  (hcap : (es.map Emission.count).sum + v.toNat % 128 ≤ cap)
include hv h hsafe hbytes hcap

/-- Before a further token: the decoding writes the wrong copies and goes on behind that token's first byte (R110). -/
theorem dec_enc_high_literal :
    dec mode cap (enc input) = decGo mode cap (more ++ rest.flatMap Emission.bytes)
      (input.take (es.map Emission.count).sum ++ List.replicate (v.toNat % 128) b) := by
  have hacc := length_take_of_emissions h
  rw [dec_enc_of_emissions mode cap h hsafe (by omega), List.flatMap_cons, List.flatMap_cons, hbytes]
  exact decGo_high_literal mode cap hv b _ (by omega)

theorem dec_enc_high_literal_noError_iff :
    (dec mode cap (enc input)).1 = .noError ↔
      ∃ tokens, decodeStream (more ++ rest.flatMap Emission.bytes) = .ok tokens ∧
        (es.map Emission.count).sum + v.toNat % 128 + (tokens.map outputCount).sum ≤ cap := by
  have hlen : (input.take (es.map Emission.count).sum ++ List.replicate (v.toNat % 128) b).length =
      (es.map Emission.count).sum + v.toNat % 128 := by
    rw [List.length_append, length_take_of_emissions h, List.length_replicate]
  rw [dec_enc_high_literal mode hv h hsafe hbytes hcap, decGo_noError_iff mode cap (by omega), hlen]

omit hv in
theorem dec_enc_high_literal_ne (hlarge : 0x80 < v.toNat) : (dec mode cap (enc input)).2 ≠ input := by
  intro hsame
  have hprefix := prefix_decGo mode cap (more ++ rest.flatMap Emission.bytes)
    (input.take (es.map Emission.count).sum ++ List.replicate (v.toNat % 128) b)
  rw [← dec_enc_high_literal mode (Nat.le_of_lt hlarge) h hsafe hbytes hcap, hsame] at hprefix
  have hsplit := (split_of_emissions h).1
  generalize input.take (es.map Emission.count).sum = before at hprefix hsplit
  rw [hsplit, List.prefix_append_right_inj] at hprefix
  have hcounted : e.Counted := counted_of_mem_emissions (input := input) (by rw [h]; simp)
  have hapart : e.value ≠ v := apart_of_emissions h (show 1 < 127 by decide)
  exact not_prefix_of_high_literal hlarge hcounted hapart hbytes hprefix

end BeforeToken

/-- Settles O48: `dec_enc_of_emissions` for the tokens before the literal, then the literal as a header; with no byte
behind it, it is a truncated one. -/
theorem outOfDomainLiterals : Obligations.OutOfDomainLiterals := by
  intro v w mode cap hv
  refine ⟨enc_singleton v, ?_, ?_, ?_, ?_⟩
  · rw [enc_singleton]
    exact decGo_high_literal_last mode cap hv []
  · intro input es h hsafe hcap
    have hsize := congrArg List.length (split_of_emissions h).1
    rw [List.length_append, length_take_of_emissions h] at hsize
    rw [dec_enc_of_emissions mode cap h hsafe (by omega)]
    exact congrArg Prod.fst (decGo_high_literal_last mode cap hv _)
  · intro hw hcap
    rw [enc_pair hw]
    exact ⟨rfl, decGo_high_literal mode cap hv w [] (by simpa using hcap)⟩
  · rintro input es rest e b more after size h hsafe hbytes rfl rfl hcap
    exact ⟨dec_enc_high_literal mode hv h hsafe hbytes hcap,
      dec_enc_high_literal_noError_iff mode hv h hsafe hbytes hcap,
      dec_enc_high_literal_ne mode h hsafe hbytes hcap⟩

end Sys2Proof.Machine
end

section
/-! SUPPORT. How an ENCODE begins and ends: its argument checks (R101), the strict check (R104), and RESULT and ERR after
either completion (R102, R175, R176). -/

namespace Sys2Proof.Machine

theorem engineStep_of_fail {s : State} {e : ErrCode} (hp : s.phase = .active) (hv : s.verdict = .fail e) :
    engineStep s = .next (s.fail e) := by
  simp only [engineStep, hp, hv, raise]

theorem fail_result_encode {s : State} (ho : s.op = .enc) (e : ErrCode) : (s.fail e).result = 0x00000000#32 := by
  rw [State.fail_result, ho, failureResult]

/-! ### The checks before the first token -/

section Checks

variable {s : State} (ho : s.op = .enc) (h0 : s.rdN = 0)
include ho h0

theorem verdict_encode_start : s.verdict = s.encodeChecks := by
  rw [State.verdict, if_pos h0, ho]

theorem verdict_encode_badArgs (hargs : s.encodeArgsOk = false) : s.verdict = .fail .invalidArgument := by
  rw [verdict_encode_start ho h0, State.encodeChecks, hargs]
  rfl

/-- With valid arguments and plain memory the strict check alone decides (R100). -/
theorem verdict_encode_goodArgs (hargs : s.encodeArgsOk = true) (hdev : hasDevice s.cfg s.buffer = false) :
    s.verdict = if s.latchStrict && s.strictFinds then .fail .strictLiteral else .proceed := by
  rw [verdict_encode_start ho h0, State.encodeChecks, hargs, hdev]
  rfl

end Checks

/-- Settles O27: the argument checks fail first, and they read no byte of M. -/
theorem encodeInvalidArgument : Obligations.EncodeInvalidArgument := by
  intro s hp ho h0 hbad
  have hargs : s.encodeArgsOk = false := by
    rw [Bool.eq_false_iff, ne_eq, encodeArgsOk_iff]
    omega
  refine ⟨_, engineStep_of_fail hp (verdict_encode_badArgs ho h0 hargs), rfl, fail_result_encode ho _, rfl, rfl, rfl,
    rfl, fun m => ?_⟩
  exact engineStep_of_fail (s := s.setMem m) hp (verdict_encode_badArgs (s := s.setMem m) ho h0 hargs)

/-- Settles O29: past the arguments the verdict is the strict check's, and `strictFinds_iff` says what it looks for. -/
theorem strictCheckRejects : Obligations.StrictCheckRejects := by
  intro s hp ho h0 hargs hdev
  have hverdict := verdict_encode_goodArgs ho h0 hargs hdev
  refine ⟨fun hstrict => ?_, fun hstrict => ⟨fun hbad => ?_, fun hgood => ?_⟩⟩
  · rw [hverdict, hstrict]
    rfl
  · rw [hstrict, (strictFinds_iff s).2 hbad] at hverdict
    exact ⟨_, engineStep_of_fail hp hverdict, rfl, fail_result_encode ho _, rfl, rfl, rfl, rfl⟩
  · have hnone : s.strictFinds = false := by
      rw [Bool.eq_false_iff, ne_eq, strictFinds_iff]
      cases hscope : s.cfg.strictScope with
      | all | literal =>
        rw [hscope] at hgood
        rintro ⟨v, hv, hhigh⟩
        exact Nat.not_lt.2 hhigh (hgood v hv)
    rw [hverdict, hstrict, hnone]
    rfl

/-! ### The completions -/

theorem verdict_encode_fail {s : State} {e : ErrCode} (ho : s.op = .enc) (hv : s.verdict = .fail e) :
    s.rdN = 0 ∧ (e = .invalidArgument ∨ e = .strictLiteral) := by
  by_cases h0 : s.rdN = 0
  · exact ⟨h0, encodeChecks_fail ((verdict_encode_start ho h0).symm.trans hv)⟩
  · rw [verdict_of_started h0] at hv
    cases hv

/-- Settles O32: past its first token the operation has no checks left, and its input is consumed. -/
theorem consumedInputCompletes : Obligations.ConsumedInputCompletes := by
  intro s hp h0 hrd ho
  exact ⟨_, engineStep_consumed hp (verdict_of_started h0) ho hrd, rfl, rfl, rfl, rfl, rfl, rfl⟩

/-- Settles O31: of the engine's moves a rejection by the checks and the completion at the input's end leave an ENCODE
idle; the first comes before any token, and the second has RESULT = wr ≥ 1. -/
theorem encodeResultZeroIffFailed : Obligations.EncodeResultZeroIffFailed := by
  intro s t hs hp ho h hidle
  have hmove := engineStep_move hs
  rw [h] at hmove
  cases hmove with
  | rests hrest => exact absurd (hp.symm.trans hrest) (by decide)
  | emits | writes => exact absurd (hp.symm.trans hidle) (by decide)
  | stops e bytes w _ hdec => exact absurd (ho.symm.trans hdec) (by decide)
  | rejects e _ hv =>
    obtain ⟨h0, he⟩ := verdict_encode_fail ho hv
    have hfailed : e ≠ .noError := by rcases he with rfl | rfl <;> decide
    exact ⟨⟨fun _ => hfailed, fun _ => fail_result_encode ho e⟩, .inr he, fun _ => ⟨rfl, h0⟩⟩
  | completes _ _ h0 _ =>
    have hcur := hs.cursors hp
    simp only [State.cursorsLegal, ho] at hcur
    obtain ⟨-, -, hstarted⟩ := hcur
    have hpos : 0 < s.wr.toNat := (hstarted h0).1
    refine ⟨⟨fun hzero => ?_, fun herr => absurd rfl herr⟩, .inl rfl, fun herr => absurd rfl herr⟩
    rw [State.complete_result] at hzero
    rw [hzero] at hpos
    exact absurd hpos (Nat.lt_irrefl 0)

end Sys2Proof.Machine
end

section
/-! SUPPORT. The run length (R103) and one token step of ENCODE: what it emits (R105–R107), and that it writes below its
new read cursor and reads at or above it (R108). -/

namespace Sys2Proof.Machine

/-! ### The run length -/

theorem getElem_of_lt_leadingRun {v : Byte} {xs : List Byte} {i : Nat} (h : i < leadingRun v xs) (hi : i < xs.length) :
    xs[i] = v := by
  have hmem : xs[i] ∈ xs.take (leadingRun v xs) := List.mem_take_iff_getElem.2 ⟨i, lt_min h hi, rfl⟩
  rw [take_leadingRun] at hmem
  exact List.eq_of_mem_replicate hmem

theorem readByte_of_lt_runlen {m : Memory} {a k i : Nat} (h : i < runlen m a k) :
    Memory.readByte m (a + i) = Memory.readByte m a := by
  have hin : i < (Memory.readBytes m a (min Config.maxCount k)).length := by
    rw [length_readBytes]
    exact lt_of_lt_of_le h (runlen_le m a k)
  rw [← getElem_readBytes m a _ i hin]
  exact getElem_of_lt_leadingRun h hin

/-- A run below its bound ends at a different byte. -/
theorem readByte_runlen_ne {m : Memory} {a k : Nat} (h : runlen m a k < min 127 k) :
    Memory.readByte m (a + runlen m a k) ≠ Memory.readByte m a := by
  have hin : leadingRun (Memory.readByte m a) (Memory.readBytes m a (min Config.maxCount k)) <
      (Memory.readBytes m a (min Config.maxCount k)).length := by
    rw [length_readBytes]
    exact h
  have hne := getElem_leadingRun hin
  rw [getElem_readBytes] at hne
  exact hne

/-- Settles O33: a longer run of equal bytes would reach past the byte at which `runlen` ends. -/
theorem runLengthIsLargest : Obligations.RunLengthIsLargest := by
  intro m a k hk
  refine ⟨runlen_pos m a hk, runlen_le m a k, fun i => readByte_of_lt_runlen, fun c hc hrun => ?_⟩
  by_contra hlonger
  have hlt : runlen m a k < c := Nat.lt_of_not_le hlonger
  exact readByte_runlen_ne (lt_of_lt_of_le hlt hc) (hrun _ hlt)

/-! ### What a token step emits -/

/-- The bytes of M after the token for a run of one is written. -/
theorem readByte_emitted_lit {m : Memory} (hm : Memory.wf m) (x : Nat) (v : Byte) (a : Nat) :
    Memory.readByte (Memory.writeBytes m x (emittedBytes 1 v)) a = if a = x then v else Memory.readByte m a :=
  readByte_writeByte hm x a v

/-- The bytes of M after the token for a longer run is written. -/
theorem readByte_emitted_run {m : Memory} (hm : Memory.wf m) {c : Nat} (hc : c ≠ 1) (x : Nat) (v : Byte) (a : Nat) :
    Memory.readByte (Memory.writeBytes m x (emittedBytes c v)) a =
      if a = x then runHeader (BitVec.ofNat 7 c) else if a = x + 1 then v else Memory.readByte m a := by
  rw [emittedBytes, if_neg hc]
  simp only [Memory.writeBytes]
  rw [readByte_writeByte (writeByte_wf hm _ _), readByte_writeByte hm]
  by_cases hx : a = x
  · rw [if_neg (by omega), if_pos hx, if_pos hx]
  · rw [if_neg hx, if_neg hx]

/-- Settles O34: the state that `encodeTokenStep_next` answers, read field by field. -/
theorem encodeTokenStepEmits : Obligations.EncodeTokenStepEmits := by
  intro s c v hp ho hv hrd hwr hpresent hm hvalue hcount
  have hstep := encodeTokenStep_next hrd hwr hpresent
  rw [← hvalue, ← hcount] at hstep
  have hpos : 1 ≤ c := hcount ▸ runlen_pos s.mem (s.B + s.rdN) (by omega)
  have hle : c ≤ min 127 (s.n - s.rdN) := hcount ▸ runlen_le s.mem (s.B + s.rdN) (s.n - s.rdN)
  have hlen := length_emittedBytes_le hpos v
  have hn : s.n < 2 ^ 32 := toNat_lt_word s.latchLen
  refine ⟨_, (engineStep_encode hp hv ho hrd).trans hstep, rdN_wrote_add (by omega), ?_, ?_, ?_, rfl⟩
  · rw [wrN_wrote_add (by omega), length_emittedBytes]
  · rintro rfl
    exact readByte_emitted_lit hm _ v
  · intro hne
    refine ⟨runHeader (BitVec.ofNat 7 c), ?_, readByte_emitted_run hm hne _ v⟩
    rw [toNat_runHeader, toNat_ofNat_count (by omega)]

/-! ### In-place safety -/

/-- Inside the range written, what was in M before does not show. -/
theorem readByte_writeBytes_inside {m q : Memory} (hm : Memory.wf m) (hq : Memory.wf q) {x a : Nat} {bytes : List Byte}
    (hlo : x ≤ a) (hhi : a < x + bytes.length) :
    Memory.readByte (Memory.writeBytes m x bytes) a = Memory.readByte (Memory.writeBytes q x bytes) a := by
  rw [readByte_writeBytes hm, readByte_writeBytes hq, if_pos ⟨hlo, hhi⟩, if_pos ⟨hlo, hhi⟩]

section Agreement

variable {s : State} {m : Memory} (hwr : s.wrN ≤ s.rdN) (hpresent : s.B + s.n ≤ s.cfg.memSize)
  (hagree : ∀ a, s.B + s.rdN ≤ a → Memory.readByte m a = Memory.readByte s.mem a)
include hwr hpresent hagree

/-- A token step emits the same token over any memory that agrees with M at the read cursor and above (R105). -/
theorem encodeTokenStep_agree (hrd : s.rdN < s.n) :
    ∃ (bytes : List Byte) (rd wr : Word), wr.toNat = s.wrN + bytes.length ∧
      encodeTokenStep s = .next (s.wrote (s.B + s.wrN) bytes rd wr) ∧
      encodeTokenStep (s.setMem m) = .next ((s.setMem m).wrote (s.B + s.wrN) bytes rd wr) := by
  have hstep := encodeTokenStep_next hrd hwr hpresent
  have hother := encodeTokenStep_next (s := s.setMem m) hrd hwr hpresent
  have hbyte : Memory.readByte (s.setMem m).mem ((s.setMem m).B + (s.setMem m).rdN) =
      Memory.readByte s.mem (s.B + s.rdN) := hagree _ (Nat.le_refl _)
  have hrun : runlen (s.setMem m).mem ((s.setMem m).B + (s.setMem m).rdN) ((s.setMem m).n - (s.setMem m).rdN) =
      runlen s.mem (s.B + s.rdN) (s.n - s.rdN) :=
    runlen_congr (Nat.sub_pos_of_lt hrd) fun a ha _ => hagree a ha
  rw [hbyte, hrun] at hother
  have hle := runlen_le s.mem (s.B + s.rdN) (s.n - s.rdN)
  have hlen := length_emittedBytes_le (runlen_pos s.mem (s.B + s.rdN) (k := s.n - s.rdN) (by omega))
    (Memory.readByte s.mem (s.B + s.rdN))
  have hn : s.n < 2 ^ 32 := toNat_lt_word s.latchLen
  exact ⟨_, _, _, toNat_add_small (show s.wrN + _ < 2 ^ 32 by omega), hstep, hother⟩

/-- So does the engine's step of a started ENCODE, whose completion reads no byte of M (R108). -/
theorem engineStep_encode_agree (hp : s.phase = .active) (ho : s.op = .enc) (h0 : s.rdN ≠ 0) (hrd : s.rdN ≤ s.n)
    (hs : Memory.wf s.mem) (hm : Memory.wf m) :
    ∃ u v, engineStep s = .next u ∧ engineStep (s.setMem m) = .next v ∧ v = u.setMem v.mem ∧
      ∀ a, s.B + s.wrN ≤ a → a < s.B + u.wrN → Memory.readByte v.mem a = Memory.readByte u.mem a := by
  have hv : s.verdict = .proceed := verdict_of_started h0
  have hother : (s.setMem m).verdict = .proceed := verdict_of_started (s := s.setMem m) h0
  rcases Nat.lt_or_eq_of_le hrd with hmore | hend
  · obtain ⟨bytes, rd, wr, hlen, hstep, hstep'⟩ := encodeTokenStep_agree hwr hpresent hagree hmore
    refine ⟨_, _, (engineStep_encode hp hv ho hmore).trans hstep,
      (engineStep_encode (s := s.setMem m) hp hother ho hmore).trans hstep', rfl, fun a hlo hhi => ?_⟩
    change a < s.B + wr.toNat at hhi
    exact readByte_writeBytes_inside hm hs hlo (by omega)
  · refine ⟨_, _, engineStep_consumed hp hv (.inl ho) hend,
      engineStep_consumed (s := s.setMem m) hp hother (.inl ho) hend, rfl, fun a hlo hhi => ?_⟩
    exact absurd hhi (Nat.not_lt.2 hlo)

end Agreement

/-- Settles O35: the step is an emission, below the new read cursor; the step after it is `engineStep_encode_agree`. -/
theorem encodeInPlaceSafe : Obligations.EncodeInPlaceSafe := by
  intro s t hs hp ho h hactive
  have hmove := engineStep_move hs
  rw [h] at hmove
  cases hmove with
  | rests hidle => exact absurd (hp.symm.trans hidle) (by decide)
  | rejects | completes | stops => cases hactive
  | writes k bytes _ hdec => exact absurd (ho.symm.trans hdec) (by decide)
  | emits c v _ _ hv _ _ hpos _ hend hwr =>
    have hpresent := ((encodeArgsOk_iff s).1 (encode_started hs hp ho hv).1).2
    have hlen := length_emittedBytes_le hpos v
    have hn : s.n < 2 ^ 32 := toNat_lt_word s.latchLen
    have hrd := rdN_wrote_add (s := s) (a := s.B + s.wrN) (bytes := emittedBytes c v) (k := c)
      (w := s.wr + BitVec.ofNat 32 (emittedBytes c v).length) (by omega)
    have hwr' := wrN_wrote_add (s := s) (a := s.B + s.wrN) (bytes := emittedBytes c v)
      (k := (emittedBytes c v).length) (r := s.rd + BitVec.ofNat 32 c) (by omega)
    refine ⟨hwr, by omega, by omega, fun a ha => readByte_writeBytes_of_outside hs.memCanonical ?_,
      fun m hm hagree => ?_⟩
    · have hbelow : s.B + (s.rdN + c) ≤ a := hrd ▸ ha
      omega
    · exact engineStep_encode_agree (by omega) hpresent hagree hp ho (by omega) (hrd.trans_le hend)
        (writeBytes_wf hs.memCanonical _ _) hm

end Sys2Proof.Machine
end

section
/-! SUPPORT. How long enc of an input is (R111), and what the encoder makes of a maximal run (R112). -/

namespace Sys2Proof.Machine

/-! ### The length of enc -/

/-- A token is as long as the bytes it stands for exactly when it is a literal or a run of two. -/
theorem length_emittedBytes_eq_iff {c : Nat} (hpos : 1 ≤ c) (v : Byte) : (emittedBytes c v).length = c ↔ c ≤ 2 := by
  rw [length_emittedBytes]
  split <;> omega

theorem run_two_of_emission {c : Nat} (hpos : 1 ≤ c) (v : Byte) :
    (∀ d w, Emission.run d w = (if c = 1 then .lit v else .run c v) → d = 2) ↔ c ≤ 2 := by
  by_cases hone : c = 1
  · simp [hone]
  · rw [if_neg hone]
    exact ⟨fun h => (h c v rfl).le, fun h d w hrun => by cases hrun; omega⟩

/-- enc keeps the length exactly when every run token has count 2: no token is longer than what it stands for. -/
theorem length_enc_eq_iff (input : List Byte) :
    (enc input).length = input.length ↔ ∀ c v, Emission.run c v ∈ emissions input → c = 2 := by
  induction input using emit_induction with
  | h0 => simp [enc, emissions_nil]
  | h1 v rest c hc hpos _ hle _ ih =>
    have hhead := (length_emittedBytes_le hpos v).2
    have htail := length_enc_le ((v :: rest).drop c)
    have hsum : (v :: rest).length = c + ((v :: rest).drop c).length := by rw [List.length_drop]; omega
    calc (enc (v :: rest)).length = (v :: rest).length
        ↔ (emittedBytes c v).length = c ∧ (enc ((v :: rest).drop c)).length = ((v :: rest).drop c).length := by
          rw [enc_cons, ← hc, List.length_append]; omega
      _ ↔ (∀ d w, Emission.run d w = (if c = 1 then .lit v else .run c v) → d = 2) ∧
            ∀ d w, Emission.run d w ∈ emissions ((v :: rest).drop c) → d = 2 := by
          rw [length_emittedBytes_eq_iff hpos, run_two_of_emission hpos, ih]
      _ ↔ ∀ d w, Emission.run d w ∈ emissions (v :: rest) → d = 2 := by
          simp only [emissions_cons, ← hc, List.mem_cons, or_imp, forall_and]

/-- A run at the head of an input with no two adjacent equal bytes is a single byte. -/
theorem enc_eq_self {input : List Byte} (h : input.IsChain (· ≠ ·)) : enc input = input := by
  induction input using emit_induction with
  | h0 => rfl
  | h1 v rest c hc hpos _ _ hsplit ih =>
    have hone : c = 1 := by
      by_contra hmore
      obtain ⟨k, rfl⟩ : ∃ k, c = k + 2 := ⟨c - 2, by omega⟩
      rw [hsplit] at h
      simp [List.replicate_succ] at h
    subst hone
    rw [enc_cons, ← hc, ih (h.drop 1)]
    rfl

/-- Settles O44: token by token for the length, and byte by byte where there are no runs. -/
theorem encodeLengthLaw : Obligations.EncodeLengthLaw := by
  refine fun input => ⟨length_enc_le input, length_enc_eq_iff input, fun h => enc_eq_self ?_⟩
  rw [List.isChain_iff_getElem]
  intro i hi
  have hne := h i hi
  rwa [List.getD_eq_getElem _ _ (by omega), List.getD_eq_getElem _ _ hi] at hne

/-! ### Emissions of an input in two parts -/

theorem leadingRun_take (v : Byte) (k : Nat) (xs : List Byte) : leadingRun v (xs.take k) = min k (leadingRun v xs) := by
  induction xs generalizing k with
  | nil => simp [leadingRun]
  | cons x xs ih =>
    cases k with
    | zero => simp [leadingRun]
    | succ k =>
      rw [List.take_succ_cons, leadingRun, leadingRun, ih]
      split <;> omega

/-- A run of `v`s does not go on past the end of `xs` where the next byte differs from the last one. -/
theorem leadingRun_append {v : Byte} {xs ys : List Byte} (h : ∀ x ∈ (v :: xs).getLast?, x ∉ ys.head?) :
    leadingRun v (xs ++ ys) = leadingRun v xs := by
  induction xs with
  | nil =>
    cases ys with
    | nil => rfl
    | cons y ys =>
      have hne : y ≠ v := by simpa using h
      simp [leadingRun, hne]
  | cons x xs ih =>
    rw [List.getLast?_cons_cons] at h
    rw [List.cons_append, leadingRun, leadingRun]
    by_cases hx : x = v
    · rw [if_pos hx, if_pos hx, ih (hx ▸ h)]
    · rw [if_neg hx, if_neg hx]

/-- Where two parts of an input meet at different bytes, each is emitted as if it were alone. -/
theorem emissions_append {xs ys : List Byte} (h : ∀ x ∈ xs.getLast?, x ∉ ys.head?) :
    emissions (xs ++ ys) = emissions xs ++ emissions ys := by
  induction xs using emit_induction with
  | h0 => rfl
  | h1 v rest c hc hpos _ hle _ ih =>
    have hrun : leadingRun v ((v :: (rest ++ ys)).take Config.maxCount) = c := by
      rw [hc, leadingRun_take, leadingRun_take, leadingRun_head, leadingRun_head, leadingRun_append h]
    have hrest : ∀ x ∈ ((v :: rest).drop c).getLast?, x ∉ ys.head? := by
      intro x hx
      rw [List.getLast?_drop] at hx
      split at hx
      · cases hx
      · exact h x hx
    rw [List.cons_append, emissions_cons, hrun, emissions_cons, ← hc, ← List.cons_append,
      List.drop_append_of_le_length hle, ih hrest, List.cons_append]

/-! ### Emissions of a run -/

/-- The tokens of a run of `len` copies of `v` (R112). -/
def runEmissions (len : Nat) (v : Byte) : List Emission :=
  List.replicate (len / 127) (.run 127 v) ++
    (if len % 127 = 0 then [] else if len % 127 = 1 then [.lit v] else [.run (len % 127) v])

theorem leadingRun_replicate (v : Byte) (k : Nat) : leadingRun v (List.replicate k v) = k := by
  induction k with
  | zero => rfl
  | succ k ih => rw [List.replicate_succ, leadingRun_head, ih]

theorem emissions_replicate_cons {len : Nat} (hlen : 0 < len) (v : Byte) :
    emissions (List.replicate len v) =
      (if min 127 len = 1 then .lit v else .run (min 127 len) v) :: emissions (List.replicate (len - min 127 len) v) := by
  obtain ⟨k, rfl⟩ : ∃ k, len = k + 1 := ⟨len - 1, by omega⟩
  have hrun : leadingRun v ((v :: List.replicate k v).take Config.maxCount) = min 127 (k + 1) := by
    rw [leadingRun_take, leadingRun_head, leadingRun_replicate]
  rw [List.replicate_succ, emissions_cons, hrun, ← List.replicate_succ, List.drop_replicate]

theorem emissions_replicate (len : Nat) (v : Byte) : emissions (List.replicate len v) = runEmissions len v := by
  induction len using Nat.strong_induction_on with
  | _ len ih =>
    rcases Nat.eq_zero_or_pos len with rfl | hpos
    · rfl
    rw [emissions_replicate_cons hpos]
    by_cases hshort : len < 127
    · have hmod : len % 127 = len := Nat.mod_eq_of_lt hshort
      have hdiv : len / 127 = 0 := Nat.div_eq_of_lt hshort
      rw [Nat.min_eq_right hshort.le, Nat.sub_self, runEmissions, hmod, hdiv, if_neg hpos.ne']
      split <;> rfl
    · have hdiv : len / 127 = (len - 127) / 127 + 1 := by omega
      have hmod : len % 127 = (len - 127) % 127 := by omega
      rw [Nat.min_eq_left (by omega), ih _ (by omega), runEmissions, runEmissions, hdiv, hmod, List.replicate_succ]
      rfl

/-- Settles O45: the run meets what stands before and after it at different bytes, so its tokens are its own. -/
theorem runSplitting : Obligations.RunSplitting := by
  intro before after v len hlen hbefore hafter
  have hend : ∀ x ∈ (List.replicate len v).getLast?, x ∉ after.head? := by
    intro x hx hhead
    rw [List.getLast?_replicate, if_neg hlen.ne'] at hx
    cases hx
    exact hafter hhead
  have hstart : ∀ x ∈ before.getLast?, x ∉ (List.replicate len v ++ after).head? := by
    intro x hx hhead
    rw [List.head?_append, List.head?_replicate, if_neg hlen.ne'] at hhead
    cases hhead
    exact hbefore hx
  rw [List.append_assoc, emissions_append hstart, emissions_append hend, emissions_replicate, ← List.append_assoc]
  rfl

end Sys2Proof.Machine
end

section
/-! SUPPORT. An accepted operation ends (R113, R149, R172, R220): the engine's progress, step by step. -/

namespace Sys2Proof.Machine

/-- How an operation ends: completed, with either code, or refused for its regions (R68, R58). -/
def OperationEnds (r : Result) : Prop :=
  (∃ t, r = .next t ∧ t.phase = .idle ∧ t.status.done = true) ∨
    (∃ e, r = .refused e ∧ (e = .overlappingRegions ∨ e = .deviceInRegion))

/-- A running operation ends within an engine step for each byte of input left, and one for the completion. -/
theorem operation_ends {s : State} (hs : s.Inv) (hp : s.phase = .active) (hsched : s.schedule = []) :
    ∃ k, k ≤ s.latchLen.toNat - s.rdN + 1 ∧ OperationEnds (core.run k s) := by
  induction hd : s.latchLen.toNat - s.rdN using Nat.strong_induction_on generalizing s with
  | _ d ih =>
    have hprogress := engineStep_progress hs hp
    have hturn := step_of_schedule_nil hsched
    cases hstep : engineStep s with
    | next t =>
      rw [hstep] at hturn hprogress
      cases hprogress with
      | finishes _ hidle hdone _ => exact ⟨1, by omega, .inl ⟨t, run_of_next hturn 0, hidle, hdone⟩⟩
      | continues _ hactive hsame hlen hrd hend =>
        have hless : t.latchLen.toNat - t.rdN < d := by rw [hlen]; omega
        obtain ⟨k, hk, hends⟩ := ih _ hless (engineStep_keeps_inv hs hstep) hactive (hsame.trans hsched) rfl
        refine ⟨k + 1, by omega, ?_⟩
        rw [run_of_next hturn]
        exact hends
    | fault e => rw [hstep] at hprogress; cases hprogress
    | refused r =>
      rw [hstep] at hturn hprogress
      cases hprogress with
      | refuses _ hr => exact ⟨1, by omega, .inr ⟨r, run_of_refused hturn 0, hr⟩⟩

/-- Settles O53: the engine steps of `operation_ends`, from wherever the read cursor stands. -/
theorem operationsTerminate : Obligations.OperationsTerminate := by
  intro s hs hp hsched
  obtain ⟨k, hk, hends⟩ := operation_ends hs hp hsched
  exact ⟨k, by omega, hends⟩

end Sys2Proof.Machine
end

section
/-! SUPPORT. dec (R144) on byte sequences: the round trip (R147), the two capacity checks and a truncated final header
(R146, R148), count-0 runs (R150), and the bound on the output (R149). -/

namespace Sys2Proof.Machine

/-- Settles O46: dec writes what the emissions stand for, which is the input, and no token is left. -/
theorem roundTripOnSequences : Obligations.RoundTripOnSequences := by
  intro input mode cap hcap hsafe
  have hcounts : ((emissions input).map Emission.count).sum = input.length := by
    rw [← length_flatMap_expand, flatMap_expand_emissions]
  have hdec := dec_enc_of_emissions mode cap (List.append_nil (emissions input)).symm hsafe (by rwa [hcounts])
  rw [hcounts, List.take_length] at hdec
  exact hdec

/-- Settles O50: each run fits, whatever the capacity, and writes nothing. -/
theorem emptyOutputSucceeds : Obligations.EmptyOutputSucceeds := by
  intro values mode cap
  induction values with
  | nil => rfl
  | cons v values ih =>
    have hrun := decGo_token_fits mode cap (i := .run 0#7 v) rfl rfl (acc := []) (Nat.zero_le cap)
      (values.flatMap fun v => [0x80#8, v])
    exact hrun.trans ih

/-! ### The bound on the output -/

/-- What a token can write for the bytes it takes (R82–R84). -/
theorem outputCount_le_of_token {i : Instr} (htok : i.isToken = true) :
    ((tokenBytes i).length = 1 ∧ outputCount i = 1) ∨ ((tokenBytes i).length = 2 ∧ outputCount i ≤ 127) := by
  cases i with
  | lit v => exact .inl ⟨rfl, rfl⟩
  | run c v => exact .inr ⟨rfl, Nat.le_of_lt_succ c.isLt⟩
  | encode => simp [Instr.isToken] at htok
  | decode => simp [Instr.isToken] at htok

theorem length_decGo_le (mode : OvfCheck) (cap : Nat) (stream : List Byte) {acc : List Byte}
    (hacc : acc.length ≤ cap) : (decGo mode cap stream acc).2.length ≤
      min cap (acc.length + 127 * (stream.length / 2) + stream.length % 2) := by
  induction stream using stream_induction generalizing acc with
  | empty =>
    rw [decGo_nil]
    show acc.length ≤ _
    omega
  | truncated b hb =>
    rw [decGo_truncated mode cap hb]
    show acc.length ≤ _
    omega
  | token i rest htok hwf ih =>
    have hcount := outputCount_le_of_token htok
    rw [List.length_append]
    by_cases hcap : acc.length + outputCount i ≤ cap
    · have hrest := ih (acc := acc ++ tokenOutput i) (by rwa [List.length_append, length_tokenOutput])
      rw [List.length_append, length_tokenOutput] at hrest
      rw [decGo_token_fits mode cap htok hwf hcap]
      omega
    · have hroom := length_overflowOutput_le mode (cap - acc.length) i
      rw [decGo_token_overflow mode cap htok hwf (Nat.lt_of_not_le hcap)]
      dsimp only
      rw [List.length_append]
      omega

/-- Settles O52: `length_decGo_le` with no output yet. -/
theorem decodeOutputBound : Obligations.DecodeOutputBound := by
  intro mode cap stream
  have hbound := length_decGo_le mode cap stream (acc := []) (Nat.zero_le cap)
  rwa [List.length_nil, Nat.zero_add] at hbound

/-! ### The outcome -/

/-- The two capacity checks end in the same way, but where they overflow: BYTE may then leave more bytes (R148). -/
theorem decGo_run_byte (cap : Nat) (stream acc : List Byte) :
    decGo .run cap stream acc = decGo .byte cap stream acc ∨
      ∃ out more, decGo .run cap stream acc = (.outputOverflow, out) ∧
        decGo .byte cap stream acc = (.outputOverflow, out ++ more) := by
  induction stream using stream_induction generalizing acc with
  | empty => exact .inl rfl
  | truncated b hb => exact .inl (by rw [decGo_truncated _ cap hb, decGo_truncated _ cap hb])
  | token i rest htok hwf ih =>
    by_cases hcap : acc.length + outputCount i ≤ cap
    · rw [decGo_token_fits _ cap htok hwf hcap, decGo_token_fits _ cap htok hwf hcap]
      exact ih _
    · have hover := fun mode => decGo_token_overflow mode cap htok hwf (Nat.lt_of_not_le hcap) rest
      have hnone : overflowOutput .run (cap - acc.length) i = [] := by cases i <;> rfl
      refine .inr ⟨acc, _, ?_, hover .byte⟩
      rw [hover, hnone, List.append_nil]

/-- Tokens whose outputs do not fit overflow, whatever stands behind them. -/
theorem decGo_assemble_overflow (mode : OvfCheck) (cap : Nat) {tokens : List Instr}
    (h : ∀ i ∈ tokens, i.isToken = true ∧ i.wellFormed = true) {acc : List Byte} (hacc : acc.length ≤ cap)
    (hcap : cap < acc.length + (tokens.map outputCount).sum) (rest : List Byte) :
    (decGo mode cap (assemble tokens ++ rest) acc).1 = .outputOverflow := by
  induction tokens generalizing acc with
  | nil => exact absurd hcap (Nat.not_lt.2 hacc)
  | cons i tokens ih =>
    obtain ⟨⟨htok, hwf⟩, hrest⟩ := List.forall_mem_cons.1 h
    rw [List.map_cons, List.sum_cons] at hcap
    rw [assemble_cons, List.append_assoc]
    by_cases hfits : acc.length + outputCount i ≤ cap
    · rw [decGo_token_fits mode cap htok hwf hfits]
      have hlen : (acc ++ tokenOutput i).length = acc.length + outputCount i := by
        rw [List.length_append, length_tokenOutput]
      exact ih hrest (by omega) (by omega)
    · rw [decGo_token_overflow mode cap htok hwf (Nat.lt_of_not_le hfits)]

/-- A run header with no value byte behind tokens: they overflow, or the header is reached (R146). -/
theorem dec_truncated (mode : OvfCheck) (cap : Nat) {tokens : List Instr} {b : Byte}
    (h : ∀ i ∈ tokens, i.isToken = true ∧ i.wellFormed = true) (hb : isRunHeader b = true) :
    (dec mode cap (assemble tokens ++ [b])).1 =
      if (tokens.map outputCount).sum ≤ cap then .truncatedStream else .outputOverflow := by
  split
  case isTrue hfits =>
    rw [dec, decGo_assemble mode cap h (by rwa [List.length_nil, Nat.zero_add]), decGo_truncated mode cap hb]
  case isFalse hover =>
    exact decGo_assemble_overflow mode cap h (acc := []) (Nat.zero_le cap) (by rw [List.length_nil]; omega) [b]

/-- Settles O49: the recursion's success, its two modes, and the truncated header, each with no output yet. -/
theorem decodeSuccessCondition : Obligations.DecodeSuccessCondition := by
  intro cap stream
  have hmodes : (dec .run cap stream).1 = (dec .byte cap stream).1 ∧
      (dec .run cap stream).2 <+: (dec .byte cap stream).2 ∧
      ((dec .run cap stream).1 ≠ .outputOverflow → dec .run cap stream = dec .byte cap stream) := by
    rcases decGo_run_byte cap stream [] with hsame | ⟨out, more, hrun, hbyte⟩
    · rw [dec, dec, hsame]
      exact ⟨rfl, List.prefix_refl _, fun _ => rfl⟩
    · rw [dec, dec, hrun, hbyte]
      exact ⟨rfl, List.prefix_append out more, fun hne => absurd rfl hne⟩
  obtain ⟨hcode, hprefix, hequal⟩ := hmodes
  refine ⟨fun mode => ?_, hcode, hprefix, hequal, ?_⟩
  · rw [dec, decGo_noError_iff mode cap (acc := []) (Nat.zero_le cap), List.length_nil]
    simp only [Nat.zero_add]
  · rintro mode tokens b htokens hb rfl
    exact dec_truncated mode cap htokens hb

end Sys2Proof.Machine
end

section
/-! SUPPORT. LIT and RUN as statements about the state (R140, R141), and the argument checks of DECODE (R131). -/

namespace Sys2Proof.Machine

theorem fail_result_decode {s : State} (ho : s.op = .dec) (e : ErrCode) : (s.fail e).result = 0xFFFFFFFF#32 := by
  rw [State.fail_result, ho, failureResult]

theorem readByte_writeBytes_replicate {m : Memory} (hm : Memory.wf m) (x k : Nat) (v : Byte) (a : Nat) :
    Memory.readByte (Memory.writeBytes m x (List.replicate k v)) a =
      if x ≤ a ∧ a < x + k then v else Memory.readByte m a := by
  rw [readByte_writeBytes hm, List.length_replicate]
  split
  case isTrue hin => exact List.getD_replicate _ (by omega)
  case isFalse => rfl

/-! ### The token instructions -/

/-- Settles O21: the state that `execLit_fits` or `execLit_overflow` answers, read field by field. -/
theorem litExecutes : Obligations.LitExecutes := by
  intro s v ho hm hD
  refine ⟨fun hcap hrd => ?_, fun hcap => ?_⟩
  · have hcap32 : s.cap < 2 ^ 32 := toNat_lt_word s.latchCap
    exact ⟨_, execLit_fits hcap (by omega), toNat_add_small hrd,
      toNat_add_small (w := s.wr) (k := 1) (show s.wrN + 1 < 2 ^ 32 by omega), rfl, rfl, rfl,
      fun a => readByte_writeByte hm (s.D + s.wrN) a v⟩
  · exact ⟨_, execLit_overflow hcap, rfl, rfl, rfl, fail_result_decode ho _, rfl, rfl, rfl, rfl⟩

/-- Settles O22: the state that the equation of `execRun` for the case at hand answers, read field by field. -/
theorem runExecutes : Obligations.RunExecutes := by
  intro s c v ho hm hD hwr
  have hcap32 : s.cap < 2 ^ 32 := toNat_lt_word s.latchCap
  have htlen32 : s.tlen < 2 ^ 32 := toNat_lt_word s.latchLen
  refine ⟨fun htrunc => ?_, fun hrd hcap => ?_, fun hrd hcap => ?_⟩
  · exact ⟨_, execRun_truncated htrunc, rfl, rfl, rfl, fail_result_decode ho _, rfl, rfl, rfl, rfl⟩
  · exact ⟨_, execRun_fits hrd hcap (by omega),
      toNat_add_small (w := s.rd) (k := 2) (show s.rdN + 2 < 2 ^ 32 by omega),
      toNat_add_small (show s.wrN + c.toNat < 2 ^ 32 by omega), rfl, rfl, rfl,
      readByte_writeBytes_replicate hm _ _ v⟩
  · cases hmode : s.cfg.decOvfCheck with
    | run =>
      exact ⟨_, execRun_overflow_run hmode hrd hcap, rfl, fail_result_decode ho _, rfl, rfl, rfl, rfl,
        fun _ => ⟨rfl, rfl⟩, fun hbyte => absurd hbyte (by decide)⟩
    | byte =>
      have hend : s.D + s.wrN + (s.cap - s.wrN) = s.D + s.cap := by omega
      have hmem := readByte_writeBytes_replicate hm (s.D + s.wrN) (s.cap - s.wrN) v
      rw [hend] at hmem
      exact ⟨_, execRun_overflow_byte hmode hrd hwr hcap hD, rfl, fail_result_decode ho .outputOverflow, rfl, rfl,
        rfl, rfl,
        fun hrun => absurd hrun (by decide), fun _ => ⟨rfl, hmem⟩⟩

/-! ### The argument checks -/

theorem verdict_decode_badArgs {s : State} (ho : s.op = .dec) (h0 : s.rdN = 0) (hargs : s.decodeArgsOk = false) :
    s.verdict = .fail .invalidArgument := by
  rw [State.verdict, if_pos h0, ho]
  show s.decodeChecks = _
  rw [State.decodeChecks, hargs]
  rfl

/-- Settles O28: the argument checks fail first, and they read no byte of M. -/
theorem decodeInvalidArgument : Obligations.DecodeInvalidArgument := by
  intro s hp ho h0 hbad
  have hargs : s.decodeArgsOk = false := by
    rw [Bool.eq_false_iff, ne_eq, decodeArgsOk_iff]
    omega
  refine ⟨_, engineStep_of_fail hp (verdict_decode_badArgs ho h0 hargs), rfl, fail_result_decode ho _, rfl, rfl, rfl,
    rfl, fun m => ?_⟩
  exact engineStep_of_fail (s := s.setMem m) hp (verdict_decode_badArgs (s := s.setMem m) ho h0 hargs)

end Sys2Proof.Machine
end

section
/-! SUPPORT. The round trip on the machine (R147): the checks of both operations pass, ENCODE leaves the tokens in its
buffer, and DECODE reads them there. -/

namespace Sys2Proof.Machine

/-! ### What enc writes -/

theorem mem_of_lit_mem_emissions {input : List Byte} {v : Byte} (h : Emission.lit v ∈ emissions input) :
    v ∈ input := by
  rw [← flatMap_expand_emissions input]
  exact List.mem_flatMap_of_mem h (List.mem_singleton_self v)

theorem length_enc_pos {input : List Byte} (h : 0 < input.length) : 0 < (enc input).length := by
  cases input with
  | nil => exact h
  | cons v rest =>
    have hfirst := (length_emittedBytes_le (leadingRun_take_pos v rest) v).1
    rw [enc_cons, List.length_append]
    omega

/-! ### The checks pass -/

theorem hasDevice_of_subregion {c : Config} {r q : Region} (h : hasDevice c q = false) (hlo : q.base ≤ r.base)
    (hhi : r.base + r.len ≤ q.base + q.len) : hasDevice c r = false := by
  rw [hasDevice, List.any_eq_false] at h ⊢
  intro device hdevice hover
  have hcommon := of_decide_eq_true hover
  exact h device hdevice (decide_eq_true (by omega))

theorem regionsOverlap_of_apart {r q : Region} (h : q.base + q.len ≤ r.base ∨ r.base + r.len ≤ q.base) :
    regionsOverlap r q = false :=
  decide_eq_false (by omega)

/-- Input in the safe domain passes the strict check under either scope (R104). -/
theorem strictFinds_of_safe {s : State} (hsafe : ∀ v ∈ Memory.readBytes s.mem s.B s.n, v.toNat < 0x80) :
    s.strictFinds = false := by
  rw [Bool.eq_false_iff, ne_eq, strictFinds_iff]
  cases s.cfg.strictScope with
  | all =>
    rintro ⟨v, hv, hhigh⟩
    exact Nat.not_lt.2 hhigh (hsafe v hv)
  | literal =>
    rintro ⟨v, hv, hhigh⟩
    exact Nat.not_lt.2 hhigh (hsafe v (mem_of_lit_mem_emissions hv))

theorem encodeChecks_of_safe {s : State} (hargs : s.encodeArgsOk = true) (hdev : hasDevice s.cfg s.buffer = false)
    (hsafe : ∀ v ∈ Memory.readBytes s.mem s.B s.n, v.toNat < 0x80) : s.encodeChecks = .proceed := by
  rw [State.encodeChecks, hargs, hdev, strictFinds_of_safe hsafe, Bool.and_false]
  rfl

theorem decodeChecks_of_valid {s : State} (hargs : s.decodeArgsOk = true)
    (hapart : regionsOverlap s.tokens s.output = false) (htokens : hasDevice s.cfg s.tokens = false)
    (houtput : hasDevice s.cfg s.output = false) : s.decodeChecks = .proceed := by
  rw [State.decodeChecks, hargs, hapart, htokens, houtput]
  rfl

/-! ### The bytes of a buffer -/

theorem getD_readBytes (m : Memory) (a : Nat) {i k : Nat} (h : i < k) :
    (Memory.readBytes m a k).getD i 0 = Memory.readByte m (a + i) := by
  rw [List.getD_eq_getElem _ _ (by rwa [length_readBytes]), getElem_readBytes]

theorem exists_of_mem_readBytes {m : Memory} {a k : Nat} {v : Byte} (h : v ∈ Memory.readBytes m a k) :
    ∃ i, i < k ∧ Memory.readByte m (a + i) = v := by
  obtain ⟨i, hi, hget⟩ := List.getElem_of_mem h
  exact ⟨i, by rwa [length_readBytes] at hi, by rw [← hget, getElem_readBytes]⟩

theorem readBytes_writeBytes {m : Memory} (hm : Memory.wf m) (a : Nat) (bytes : List Byte) :
    Memory.readBytes (Memory.writeBytes m a bytes) a bytes.length = bytes := by
  refine List.ext_getElem (length_readBytes _ _ _) fun i hi hbytes => ?_
  rw [getElem_readBytes, readByte_writeBytes hm, if_pos (by omega), Nat.add_sub_cancel_left,
    List.getD_eq_getElem _ _ hbytes]

/-! ### The two runs -/

/-- The state in which an accepted ENCODE of `input` ends: enc of it in the buffer, and its length in RESULT. -/
def State.encoded (s : State) (input : List Byte) (w : Word) : State :=
  ((s.accept .enc).wrote s.srcAddr.toNat (enc input) s.srcLen w).complete w

theorem run_encode {s : State} {input : List Byte} (hsched : s.schedule = []) (hm : Memory.wf s.mem)
    (hchecks : (s.accept .enc).encodeChecks = .proceed)
    (hinput : input = Memory.readBytes s.mem s.srcAddr.toNat s.srcLen.toNat) :
    ∃ k w, w.toNat = (enc input).length ∧ core.run k (s.accept .enc) = .next (s.encoded input w) := by
  obtain ⟨k, w, -, hw, hrun⟩ := (accept_encoding hsched hm hchecks).run
  have hleft : (s.accept .enc).inputLeft = input := hinput.symm
  rw [hleft] at hw hrun
  exact ⟨k, w, hw.trans (Nat.zero_add _), hrun⟩

/-- DECODE of enc of an input in the safe domain gives the input back. -/
theorem run_decode_enc {s : State} {input : List Byte} (hb : s.status.busy = false) (hsched : s.schedule = [])
    (hm : Memory.wf s.mem) (hchecks : (s.accept .dec).decodeChecks = .proceed)
    (hsafe : ∀ v ∈ input, v.toNat < 0x80) (hcap : input.length ≤ s.dstCap.toNat)
    (hstream : enc input = Memory.readBytes s.mem s.srcAddr.toNat s.srcLen.toNat) :
    ∃ k t, core.run k (s.accept .dec) = .next t ∧ t.phase = .idle ∧ t.status.err = .noError ∧
      t.result.toNat = input.length ∧
      ∀ i, i < input.length → Memory.readByte t.mem (s.dstAddr.toNat + i) = input.getD i 0 := by
  have hdec := roundTripOnSequences input s.cfg.decOvfCheck s.dstCap.toNat hcap
    fun v hv => hsafe v (mem_of_lit_mem_emissions hv)
  obtain ⟨-, k, t, -, hrun, hidle, -, -, herr, hresult, -, -, hbytes⟩ :=
    decodeFunctionalForm s (enc input) .noError input hb hsched hm hchecks hstream hdec.symm
  refine ⟨k, t, hrun, hidle, herr, hresult rfl, fun i hi => ?_⟩
  rw [hbytes, if_pos (by omega), Nat.add_sub_cancel_left]

/-! ### One run after the other -/

/-- The registers set for a DECODE of the first RESULT bytes at SRC_ADDR into a region of `cap` bytes at `d`. -/
def State.readyToDecode (s : State) (d cap : Word) : State :=
  { s with srcLen := s.result, dstAddr := d, dstCap := cap }

/-- The tokens lie within the buffer, so a DECODE of them passes its checks (R111, R131). -/
theorem decodeChecks_of_encoded {s : State} {input : List Byte} {w d cap : Word} (hw : w.toNat = (enc input).length)
    (hlen : input.length = s.srcLen.toNat) (hn : 0 < s.srcLen.toNat)
    (hB : s.srcAddr.toNat + s.srcLen.toNat ≤ s.cfg.memSize) (hD : d.toNat + cap.toNat ≤ s.cfg.memSize)
    (hapart : d.toNat + cap.toNat ≤ s.srcAddr.toNat ∨ s.srcAddr.toNat + s.srcLen.toNat ≤ d.toNat)
    (hdevB : hasDevice s.cfg { base := s.srcAddr.toNat, len := s.srcLen.toNat } = false)
    (hdevD : hasDevice s.cfg { base := d.toNat, len := cap.toNat } = false) :
    (((s.encoded input w).readyToDecode d cap).accept .dec).decodeChecks = .proceed := by
  have hpos : 0 < w.toNat := hw ▸ length_enc_pos (hlen ▸ hn)
  have hle : w.toNat ≤ s.srcLen.toNat := hw ▸ hlen ▸ length_enc_le input
  have htokens : hasDevice s.cfg { base := s.srcAddr.toNat, len := w.toNat } = false :=
    hasDevice_of_subregion hdevB (Nat.le_refl _) (Nat.add_le_add_left hle _)
  refine decodeChecks_of_valid ((decodeArgsOk_iff _).2 ⟨Nat.ne_of_gt hpos, ?_, hD⟩) (regionsOverlap_of_apart ?_)
    htokens hdevD
  · show s.srcAddr.toNat + w.toNat ≤ s.cfg.memSize
    omega
  · show d.toNat + cap.toNat ≤ s.srcAddr.toNat ∨ s.srcAddr.toNat + w.toNat ≤ d.toNat
    omega

/-- Settles O47: the run of ENCODE ends in `State.encoded`, and its tokens are the stream of the DECODE. -/
theorem roundTripOnMachine : Obligations.RoundTripOnMachine := by
  intro s d cap _ hsched hm hdevB hdevD hn hB hlow hcap hD hapart
  obtain ⟨input, hinput⟩ : ∃ input, input = Memory.readBytes s.mem s.srcAddr.toNat s.srcLen.toNat := ⟨_, rfl⟩
  have hlen : input.length = s.srcLen.toNat := by rw [hinput, length_readBytes]
  have hsafe : ∀ v ∈ input, v.toNat < 0x80 := by
    intro v hv
    rw [hinput] at hv
    obtain ⟨i, hi, rfl⟩ := exists_of_mem_readBytes hv
    exact Nat.lt_succ_of_le (hlow i hi)
  have hchecks : (s.accept .enc).encodeChecks = .proceed :=
    encodeChecks_of_safe ((encodeArgsOk_iff _).2 ⟨Nat.ne_of_gt hn, hB⟩) hdevB (hinput ▸ hsafe)
  obtain ⟨k, w, hw, hrun⟩ := run_encode hsched hm hchecks hinput
  have hstream : Memory.readBytes (Memory.writeBytes s.mem s.srcAddr.toNat (enc input)) s.srcAddr.toNat w.toNat =
      enc input := by
    rw [hw, readBytes_writeBytes hm]
  obtain ⟨j, t, hrunD, hidle, herr, hresult, hbytes⟩ :=
    run_decode_enc (s := (s.encoded input w).readyToDecode d cap) rfl hsched (writeBytes_wf hm _ _)
      (decodeChecks_of_encoded hw hlen hn hB hD hapart hdevB hdevD) hsafe (hlen ▸ hcap) hstream.symm
  refine ⟨k, _, hrun, rfl, rfl, j, t, hrunD, hidle, herr, hresult.trans hlen, fun i hi => ?_⟩
  rw [← getD_readBytes s.mem s.srcAddr.toNat hi, ← hinput]
  exact hbytes i (by omega)

end Sys2Proof.Machine
end

section
/-! SUPPORT. The block's exception entry (60_exceptions.md): the failure of a reserved command word (R172), and the two
completions as whole states (R175, R176). -/

namespace Sys2Proof.Machine

/-! ### A reserved command word -/

/-- A reserved word has no check and no token before its failure (R172). -/
theorem verdict_illegal_start {s : State} (ho : s.op = .ill) (h0 : s.rdN = 0) : s.verdict = .fail .illegalCommand := by
  rw [State.verdict, if_pos h0, ho]

/-- The failure completion of an accepted reserved word, with no premise on the rest of the state. -/
theorem engineStep_accept_ill (s : State) : engineStep (s.accept .ill) = .next ((s.accept .ill).fail .illegalCommand) :=
  engineStep_of_fail rfl (verdict_illegal_start rfl rfl)

theorem hostStep_cmd_reserved {s : State} {w : Word} (hb : s.status.busy = false) (h1 : w.toNat ≠ 1)
    (h2 : w.toNat ≠ 2) : hostStep (.regWrite (s.cfg.regBase + 0x04) 32 w) s = .next (s.accept .ill) := by
  rw [hostStep_cmd_of_ready hb, if_neg h1, if_neg h2]

/-- Settles O26: the word is accepted as ILL, whose failure reads no byte: over the memory `m` it is the failure of the
same word accepted over `m`. -/
theorem illegalCommandFails : Obligations.IllegalCommandFails := by
  intro s w hb h1 h2
  exact ⟨s.accept .ill, _, hostStep_cmd_reserved hb h1 h2, engineStep_accept_ill s, rfl, rfl, rfl, rfl, rfl, rfl,
    fun m => engineStep_accept_ill (s.setMem m)⟩

/-! ### The completions as whole states -/

theorem failureResult_eq_ite (o : Op) : failureResult o = if o = .enc then 0x00000000#32 else 0xFFFFFFFF#32 := by
  cases o <;> rfl

theorem engineStep_finish (s : State) (r : Word) (e : ErrCode) : engineStep (s.finish r e) = .next (s.finish r e) :=
  engineStep_of_idle (State.finish_phase s r e)

/-- Settles O30: both completions are `finish`, which leaves the engine idle; RESULT after a failure is
`failureResult_eq_ite`. -/
theorem completionEffects : Obligations.CompletionEffects := by
  intro s r e
  refine ⟨⟨s.finish r .noError, rfl, engineStep_finish s _ _, rfl⟩,
    ⟨s.finish (failureResult s.op) e, rfl, engineStep_finish s _ _, ?_⟩⟩
  rw [failureResult_eq_ite]
  rfl

end Sys2Proof.Machine
end

section
/-! SUPPORT. Reset during an operation (R202), the first command after reset (R201), and a command while BUSY = 1
(R215). -/

namespace Sys2Proof.Machine

/-! ### The draws of an abandoned operation -/

theorem getD_freeBytes (j : Nat) {i k : Nat} (h : i < k) (d : Byte) :
    (freeBytes j k).getD i d = Config.freeByte (j + i) := by
  simp [freeBytes, List.getD, h]

/-- What every byte of M reads as after the reset signal: a draw inside the write region, its old value outside. -/
theorem readByte_resetBlock {s : State} (hm : Memory.wf s.mem) (a : Nat) :
    Memory.readByte s.resetBlock.mem a =
      if inRegion s.writeRegion a then Config.freeByte (s.draws + (a - s.writeRegion.base))
      else Memory.readByte s.mem a := by
  rw [State.resetBlock_mem, readByte_writeBytes hm, length_freeBytes]
  simp only [inRegion_iff]
  split
  case isTrue hin => exact getD_freeBytes s.draws (by omega) _
  case isFalse => rfl

theorem writeRegion_encode {s : State} (hp : s.phase = .active) (ho : s.op = .enc) (h : s.B + s.n ≤ s.cfg.memSize) :
    s.writeRegion = s.buffer := by
  simp only [State.writeRegion, hp, ho, State.buffer, Nat.min_eq_left (Nat.le_sub_of_add_le' h)]

theorem writeRegion_decode {s : State} (hp : s.phase = .active) (ho : s.op = .dec)
    (h : s.D + s.cap ≤ s.cfg.memSize) : s.writeRegion = s.output := by
  simp only [State.writeRegion, hp, ho, State.output, Nat.min_eq_left (Nat.le_sub_of_add_le' h)]

/-- Settles O9: the signal answers `resetBlock`, whose memory is `readByte_resetBlock`; the clip of the write region
takes nothing off a region that lies in M. -/
theorem resetDuringOperationDrawsWriteRegion : Obligations.ResetDuringOperationDrawsWriteRegion := by
  intro s hs hp
  refine ⟨s.resetBlock, rfl, rfl, rfl, rfl, fun a hout => ?_, fun i hi => ?_, writeRegion_encode hp,
    writeRegion_decode hp⟩
  · rw [readByte_resetBlock hs.memCanonical, hout]
    rfl
  · have hin : inRegion s.writeRegion (s.writeRegion.base + i) = true := (inRegion_iff _ _).2 (by omega)
    rw [readByte_resetBlock hs.memCanonical, if_pos hin, Nat.add_sub_cancel_left]

/-! ### The first command after reset -/

/-- An operation accepted right after reset latches the length 0 (R201), which the argument checks of both operations
reject (R101, R131). -/
theorem verdict_accept_resetBlock (s : State) {op : Op} (ho : op = .enc ∨ op = .dec) :
    (s.resetBlock.accept op).verdict = .fail .invalidArgument := by
  rcases ho with rfl | rfl
  · exact verdict_encode_badArgs rfl rfl (Bool.eq_false_iff.2 fun hargs => ((encodeArgsOk_iff _).1 hargs).1 rfl)
  · exact verdict_decode_badArgs rfl rfl (Bool.eq_false_iff.2 fun hargs => ((decodeArgsOk_iff _).1 hargs).1 rfl)

theorem engineStep_accept_resetBlock (s : State) {op : Op} (ho : op = .enc ∨ op = .dec) :
    engineStep (s.resetBlock.accept op) = .next ((s.resetBlock.accept op).fail .invalidArgument) :=
  engineStep_of_fail rfl (verdict_accept_resetBlock s ho)

/-- Settles O10: BUSY = 0 after reset, so the command is accepted, and its verdict is `verdict_accept_resetBlock`. -/
theorem firstCommandAfterResetFails : Obligations.FirstCommandAfterResetFails := fun s =>
  ⟨⟨s.resetBlock.accept .enc, _, rfl, engineStep_accept_resetBlock s (.inl rfl), rfl, rfl,
      fail_result_encode rfl _, rfl⟩,
    ⟨s.resetBlock.accept .dec, _, rfl, engineStep_accept_resetBlock s (.inr rfl), rfl, rfl,
      fail_result_decode rfl _, rfl⟩⟩

/-! ### A command while BUSY = 1 -/

/-- Settles O15: `command` leaves a busy state as it is (R27), whatever the operation. -/
theorem commandWhileBusyIgnored : Obligations.CommandWhileBusyIgnored := by
  intro s w hb
  refine ⟨hostStep_cmd_of_busy hb w, ?_, ?_⟩
  · rw [exec_encode, State.command_of_busy hb]
  · rw [exec_decode, State.command_of_busy hb]

end Sys2Proof.Machine
end
